-- ==== Sys2Proof/Word.lean ====
section
/-! DEFINITION. The 32-bit word (00_scope.md R5: XLEN = ILEN = 32) and the register index (R5: NREGS = 32).
u(v) of 00_scope.md section 6 is `v.toNat`, s(v) is `v.toInt`. -/
namespace Sys2Proof

/-- A register, a data cell, an ALU operand or result, an instruction word: 32 bits (R5, R10, R19, R50). -/
abbrev Word := BitVec 32

/-- The index of a general register, 0 to 31 (R10, R13). -/
abbrev Reg := Fin 32

end Sys2Proof
end

