-- ==== Sys2Proof/Syntax.lean ====
section
/-! DEFINITION. The ten instructions (30_encoding.md R57, R61; opcode_table.json), one constructor a row. -/
namespace Sys2Proof

/-- An instruction with the operands that mean something in its format (R52). `k` is the integer K of R61: the signed
reading of the 16-bit immediate field. Bits a format ignores (R59) are no part of it. -/
inductive Instr where
  /-- `add $rd, $rs, $rt` (R120) -/
  | add (rd rs rt : Reg)
  /-- `or $rd, $rs, $rt` (R121) -/
  | or (rd rs rt : Reg)
  /-- `xor $rd, $rs, $rt` (R122) -/
  | xor (rd rs rt : Reg)
  /-- `slt $rd, $rs, $rt` (R123) -/
  | slt (rd rs rt : Reg)
  /-- `subi $rt, $rs, K` (R124) -/
  | subi (rt rs : Reg) (k : Int)
  /-- `lw $rt, K($rs)` (R130) -/
  | lw (rt rs : Reg) (k : Int)
  /-- `sw $rt, K($rs)` (R131) -/
  | sw (rt rs : Reg) (k : Int)
  /-- `bge $rs, $rt, K` (R140) -/
  | bge (rs rt : Reg) (k : Int)
  /-- `j K` (R141) -/
  | j (k : Int)
  /-- `jal K` (R142) -/
  | jal (k : Int)
deriving DecidableEq, Repr

end Sys2Proof
end

