-- ==== Sys2Proof/WellFormed.lean ====
section
/-! DEFINITION. Which instructions can be written in a word. A register index is in range by its type; the one check is
K's range (30_encoding.md R51, R61: -32768 ≤ K ≤ 32767). -/
namespace Sys2Proof

/-- K fits the 16-bit two's-complement field (R51, R61). -/
def immFits (k : Int) : Bool := decide (-32768 ≤ k ∧ k ≤ 32767)

/-- The instruction has an encoding: every K it carries fits its field. -/
def Instr.wf : Instr → Bool
  | .add _ _ _ => true
  | .or _ _ _ => true
  | .xor _ _ _ => true
  | .slt _ _ _ => true
  | .subi _ _ k => immFits k
  | .lw _ _ k => immFits k
  | .sw _ _ k => immFits k
  | .bge _ _ k => immFits k
  | .j k => immFits k
  | .jal k => immFits k

end Sys2Proof
end

