-- ==== Sys2Proof/Decode.lean ====
section
/-! DEFINITION. The decoder (30_encoding.md R50 to R60; 40_cycle_and_decode.md R73, R74, R91), a pure function of the
32-bit word, and the encoder (R64), both over the one table ENC of R57. -/
namespace Sys2Proof

/-! ## Operations and formats -/

/-- The tag the Decoder produces once and every later stage uses (R56, R73). -/
inductive Op where
  | add | or | xor | slt | subi | lw | sw | bge | j | jal
deriving DecidableEq, Repr

/-- The format of a word (R52). -/
inductive Format where
  | R | I | J
deriving DecidableEq, Repr

/-- Why a word is invalid (R60): its opcode is in no row of ENC, or its opcode is the R-format one and its func is in
no R row. -/
inductive DecodeError where
  | unknownOpcode (opcode : BitVec 6)
  | unknownFunc (func : BitVec 6)
deriving DecidableEq, Repr

/-- The format of an operation (R52, R74). -/
def Op.format : Op → Format
  | .add | .or | .xor | .slt => .R
  | .subi | .bge | .lw | .sw => .I
  | .j | .jal => .J

/-- The operation of an instruction (R73). -/
def Instr.op : Instr → Op
  | .add _ _ _ => .add
  | .or _ _ _ => .or
  | .xor _ _ _ => .xor
  | .slt _ _ _ => .slt
  | .subi _ _ _ => .subi
  | .lw _ _ _ => .lw
  | .sw _ _ _ => .sw
  | .bge _ _ _ => .bge
  | .j _ => .j
  | .jal _ => .jal

/-! ## The table ENC (R57, decision D2; log entry 9) -/

/-- The column `opcode` of R57. -/
def Op.opcode : Op → BitVec 6
  | .add | .or | .xor | .slt => 0x00#6
  | .subi => 0x18#6
  | .bge => 0x19#6
  | .lw => 0x23#6
  | .sw => 0x2B#6
  | .j => 0x02#6
  | .jal => 0x03#6

/-- The column `func` of R57; `none` is "not examined". -/
def Op.func : Op → Option (BitVec 6)
  | .add => some 0x20#6
  | .or => some 0x25#6
  | .xor => some 0x26#6
  | .slt => some 0x2A#6
  | .subi | .bge | .lw | .sw | .j | .jal => none

/-- The column `mask` of R57 (and of opcode_table.json). -/
def Op.mask : Op → Word
  | .add | .or | .xor | .slt => 0xFC00003F#32
  | .subi | .bge | .lw | .sw | .j | .jal => 0xFC000000#32

/-- The column `match` of R57 (and of opcode_table.json). -/
def Op.matchBits : Op → Word
  | .add => 0x00000020#32
  | .or => 0x00000025#32
  | .xor => 0x00000026#32
  | .slt => 0x0000002A#32
  | .subi => 0x60000000#32
  | .bge => 0x64000000#32
  | .lw => 0x8C000000#32
  | .sw => 0xAC000000#32
  | .j => 0x08000000#32
  | .jal => 0x0C000000#32

/-- The bits of a word its operation's format gives a meaning (R53, R59): all of an I word, all but bits 10:6 of an R
word, all but bits 25:16 of a J word. -/
def Op.meaningfulBits (m : Op) : Word :=
  match m.format with
  | .R => 0xFFFFF83F#32
  | .I => BitVec.allOnes 32
  | .J => 0xFC00FFFF#32

/-! ## Fields (R51) -/

/-- The six fields of a word, cut at fixed positions whatever the format (R51). -/
structure Fields where
  opcode : BitVec 6
  rs : Reg
  rt : Reg
  rd : Reg
  func : BitVec 6
  /-- s(imm), the signed reading of bits 15:0 (R51, R54). -/
  imm : Int
deriving DecidableEq, Repr

/-- A 5-bit field read as a register index (R51). -/
def regOfBits (b : BitVec 5) : Reg := ⟨b.toNat, b.isLt⟩

/-- R51: opcode = w[31:26], rs = w[25:21], rt = w[20:16], rd = w[15:11], func = w[5:0], imm = sext(w[15:0]). -/
def fieldsOf (w : Word) : Fields where
  opcode := w.extractLsb' 26 6
  rs := regOfBits (w.extractLsb' 21 5)
  rt := regOfBits (w.extractLsb' 16 5)
  rd := regOfBits (w.extractLsb' 11 5)
  func := w.extractLsb' 0 6
  imm := (w.extractLsb' 0 16).toInt

/-! ## Recognition (R56) -/

/-- R56 step (2): the func of an R-format word among the four R-format functions. -/
def recogniseFunc (func : BitVec 6) : Except DecodeError Op :=
  if Op.add.func = some func then .ok .add
  else if Op.or.func = some func then .ok .or
  else if Op.xor.func = some func then .ok .xor
  else if Op.slt.func = some func then .ok .slt
  else .error (.unknownFunc func)

/-- R56: look the opcode up; func is examined for the R-format opcode only; a failed lookup is an invalid word (R60). -/
def recognise (opcode func : BitVec 6) : Except DecodeError Op :=
  if opcode = Op.add.opcode then recogniseFunc func
  else if opcode = Op.subi.opcode then .ok .subi
  else if opcode = Op.bge.opcode then .ok .bge
  else if opcode = Op.lw.opcode then .ok .lw
  else if opcode = Op.sw.opcode then .ok .sw
  else if opcode = Op.j.opcode then .ok .j
  else if opcode = Op.jal.opcode then .ok .jal
  else .error (.unknownOpcode opcode)

/-- The instruction an operation makes of the fields that mean something in its format (R52). -/
def Fields.instr (f : Fields) : Op → Instr
  | .add => .add f.rd f.rs f.rt
  | .or => .or f.rd f.rs f.rt
  | .xor => .xor f.rd f.rs f.rt
  | .slt => .slt f.rd f.rs f.rt
  | .subi => .subi f.rt f.rs f.imm
  | .lw => .lw f.rt f.rs f.imm
  | .sw => .sw f.rt f.rs f.imm
  | .bge => .bge f.rs f.rt f.imm
  | .j => .j f.imm
  | .jal => .jal f.imm

/-- The operation of a word, or why it has none (R56). -/
def opOf (w : Word) : Except DecodeError Op := recognise (fieldsOf w).opcode (fieldsOf w).func

/-- The decoder (R73, R91): total on every 32-bit pattern. -/
def decodeWord (w : Word) : Except DecodeError Instr :=
  match opOf w with
  | .ok m => .ok ((fieldsOf w).instr m)
  | .error e => .error e

/-! ## The encoder (R64) -/

/-- A field placed with its lowest bit at position `at_` of the word. -/
def placed {n : Nat} (b : BitVec n) (at_ : Nat) : Word := b.setWidth 32 <<< at_

/-- R64, first form: (opcode << 26) | (rs << 21) | (rt << 16) | (rd << 11) | func; bits 10:6 zero. -/
def encodeR (m : Op) (rd rs rt : Reg) : Word :=
  placed m.opcode 26 ||| placed (BitVec.ofNat 5 rs) 21 ||| placed (BitVec.ofNat 5 rt) 16
    ||| placed (BitVec.ofNat 5 rd) 11 ||| placed (m.func.getD 0) 0

/-- R64, second form: (opcode << 26) | (rs << 21) | (rt << 16) | (K mod 2^16). -/
def encodeI (m : Op) (rt rs : Reg) (k : Int) : Word :=
  placed m.opcode 26 ||| placed (BitVec.ofNat 5 rs) 21 ||| placed (BitVec.ofNat 5 rt) 16
    ||| placed (BitVec.ofInt 16 k) 0

/-- R64, third form: (opcode << 26) | (K mod 2^16); bits 25:16 zero. -/
def encodeJ (m : Op) (k : Int) : Word :=
  placed m.opcode 26 ||| placed (BitVec.ofInt 16 k) 0

/-- The word of an instruction (R64). -/
def encode : Instr → Word
  | .add rd rs rt => encodeR .add rd rs rt
  | .or rd rs rt => encodeR .or rd rs rt
  | .xor rd rs rt => encodeR .xor rd rs rt
  | .slt rd rs rt => encodeR .slt rd rs rt
  | .subi rt rs k => encodeI .subi rt rs k
  | .lw rt rs k => encodeI .lw rt rs k
  | .sw rt rs k => encodeI .sw rt rs k
  | .bge rs rt k => encodeI .bge rt rs k
  | .j k => encodeJ .j k
  | .jal k => encodeJ .jal k

/-! ## The opcode table's words -/

/-- A word of `nbits` bits as opcode_table.json numbers them: the 32-bit pattern with every bit above `nbits` zero. The
core has no byte order (R34): the pattern is the word (log entry 15). -/
def tableWord (nbits w : Nat) : Word := BitVec.ofNat 32 (w % 2 ^ nbits)

/-- What the decoder reads from that word. -/
def decodeTableWord (nbits w : Nat) : Option Instr := (decodeWord (tableWord nbits w)).toOption

end Sys2Proof
end

