-- ==== Sys2Proof/Machine/Alu.lean ====
section
/-! DEFINITION. The arithmetic/logic unit (41_alu.md): a pure function of the operation and two words. -/
namespace Sys2Proof.Machine

/-- The seven operations and the sentinel INV (R75, R100, R109). -/
inductive AluOp where
  | and | or | xor | add | sub | not | slt | inv
deriving DecidableEq, Repr

/-- ALU(op, in1, in2), R100 to R109: 32-bit results, arithmetic modulo 2^32, no flag and no trap (R110). `slt` compares
the signed readings exactly (R108). INV has no result (R109, 93 U7). -/
def alu (op : AluOp) (in1 in2 : Word) : Option Word :=
  match op with
  | .and => some (in1 &&& in2)
  | .or => some (in1 ||| in2)
  | .xor => some (in1 ^^^ in2)
  | .add => some (in1 + in2)
  | .sub => some (in1 - in2)
  | .not => some (~~~in1)
  | .slt => some (if in1.toInt < in2.toInt then 1 else 0)
  | .inv => none

end Sys2Proof.Machine
end

