-- ==== Sys2Proof/Machine/Control.lean ====
section
/-! DEFINITION. The eight control signals and the control table (40_cycle_and_decode.md R75, R76, R77): a function of the
operation alone. -/
namespace Sys2Proof.Machine

/-- What Writeback writes: the ALU result or the cell read (R75). -/
inductive MemToReg where
  | alu | mem
deriving DecidableEq, Repr

/-- What the Control-Transfer Unit does (R75). -/
inductive BranchKind where
  | none | conditional | unconditional | call
deriving DecidableEq, Repr

/-- Which register Writeback names (R75, R86). -/
inductive DestSelect where
  | rd | rt | link | none
deriving DecidableEq, Repr

/-- The eight control signals (R75). -/
structure Signals where
  aluOp : AluOp
  memRead : Bool
  memWrite : Bool
  memToReg : MemToReg
  aluSrcIsImmediate : Bool
  branchKind : BranchKind
  regWrite : Bool
  destRegSelect : DestSelect
deriving DecidableEq, Repr

/-- The row of an R-format operation: all four differ in `aluOp` only (R76). -/
def signalsR (op : AluOp) : Signals where
  aluOp := op
  memRead := false
  memWrite := false
  memToReg := .alu
  aluSrcIsImmediate := false
  branchKind := .none
  regWrite := true
  destRegSelect := .rd

/-- The control table, row for row (R76); where it says n/a, `memToReg` is ALU and `aluSrcIsImmediate` is no (R77). -/
def signals : Op → Signals
  | .add => signalsR .add
  | .or => signalsR .or
  | .xor => signalsR .xor
  | .slt => signalsR .slt
  | .subi => { aluOp := .sub, memRead := false, memWrite := false, memToReg := .alu, aluSrcIsImmediate := true,
               branchKind := .none, regWrite := true, destRegSelect := .rt }
  | .lw => { aluOp := .add, memRead := true, memWrite := false, memToReg := .mem, aluSrcIsImmediate := true,
             branchKind := .none, regWrite := true, destRegSelect := .rt }
  | .sw => { aluOp := .add, memRead := false, memWrite := true, memToReg := .alu, aluSrcIsImmediate := true,
             branchKind := .none, regWrite := false, destRegSelect := .none }
  | .bge => { aluOp := .sub, memRead := false, memWrite := false, memToReg := .alu, aluSrcIsImmediate := false,
              branchKind := .conditional, regWrite := false, destRegSelect := .none }
  | .j => { aluOp := .inv, memRead := false, memWrite := false, memToReg := .alu, aluSrcIsImmediate := false,
            branchKind := .unconditional, regWrite := false, destRegSelect := .none }
  | .jal => { aluOp := .inv, memRead := false, memWrite := false, memToReg := .alu, aluSrcIsImmediate := false,
              branchKind := .call, regWrite := true, destRegSelect := .link }

end Sys2Proof.Machine
end

