-- ==== Sys2Proof/Machine/Flags.lean ====
section
/-! DEFINITION. The core has no flags, condition codes or predicate registers (10_state.md R22, 41_alu.md R110). The one
condition an instruction tests is the sign of its own ALU result. -/
namespace Sys2Proof.Machine

/-- The test of `bge` (44_control_transfer.md R140): s(aluResult) >= 0, bit 31 of the result is 0. With no ALU result
there is nothing to test and the branch is not taken; no row of the control table asks (log entry 10). -/
def resultNonNegative : Option Word → Bool
  | some d => !d.getLsbD 31
  | none => false

end Sys2Proof.Machine
end

