-- ==== Sys2Proof/Config.lean ====
section
/-! DEFINITION. What an implementation fixes (00_scope.md R5, R6) and the one free value of the model. -/
namespace Sys2Proof.Config

/-- The two OPEN parameters of R5: the capacities of the two memories. They are a field of State, which no step
changes, so that every statement holds for every capacity (DESIGN CHOICE, log entry 2). -/
structure Params where
  /-- IMEM_WORDS, in instruction words. -/
  imemWords : Nat
  /-- DMEM_WORDS, in cells. -/
  dmemWords : Nat
deriving DecidableEq, Repr

/-- R6 (c), (d) and the ranges of R5: 1 ≤ IMEM_WORDS ≤ 2^30 and 1 ≤ DMEM_WORDS ≤ 2^31. -/
abbrev Params.wf (p : Params) : Prop :=
  1 ≤ p.imemWords ∧ p.imemWords ≤ 2 ^ 30 ∧ 1 ≤ p.dmemWords ∧ p.dmemWords ≤ 2 ^ 31

/-- The capacities the reset state carries: the largest R6 allows. DESIGN CHOICE, unsafe (log entry 2): the spec names
no number. -/
def largest : Params := { imemWords := 2 ^ 30, dmemWords := 2 ^ 31 }

/-- What an Instruction Memory entry holds that the host has not loaded: "unspecified" (10_state.md R18, R24), any value
(93 U6). A FREE VALUE: it has no body, so no proof can see what it is (DESIGN CHOICE, safe, log entry 3). -/
opaque unloadedWord : Nat → Word

end Sys2Proof.Config
end

