-- ==== Sys2Proof/Machine/State.lean ====
section
/-! DEFINITION. The whole state of the core (10_state.md R10 to R20), its value after reset (R24), and the reasons a
step can stop. -/
namespace Sys2Proof.Machine

/-- The four fatal causes with the information each records (60_exceptions.md R151). It is the content of the fault
register: raising one is a NEXT state (log entry 4). -/
inductive Cause where
  /-- Code 1: the word `w` at index `pc0` is none of the ten operations (R152). -/
  | invalidInstruction (pc0 : Int) (w : Word)
  /-- Code 2: `regWrite` with no destination; unreachable with the control table of R76 (R153). -/
  | noDestination (pc0 : Int) (w : Word)
  /-- Code 3: the signed data address `a` of a `lw` or `sw` is out of range (R154). -/
  | dataAddressOutOfRange (a : Int)
  /-- Code 4: a step begun with the negative program counter `pc` (R155). -/
  | fetchAddressOutOfRange (pc : Int)
deriving DecidableEq, Repr

/-- Sparse word-addressed storage: (address, word) pairs, addresses strictly rising. What an unlisted address reads as
is said by the read of each memory (Ops.lean). Cells are 32-bit words, never bytes (R32, R34, D13; log entry 1). -/
abbrev Memory := List (Nat × Word)

/-- Why a step gives no next state. -/
inductive Fault where
  /-- Answered by `step` of a FAULTED machine, and by nothing else: it takes no step until reset (10_state.md R25,
  60_exceptions.md R158); `cause` is what the fault register holds. Safe (log entry 5). -/
  | stopped (cause : Cause)
deriving DecidableEq, Repr

/-- Why an instruction has no meaning. -/
inductive Refusal where
  /-- Answered by `exec` alone, for an instruction without a meaning yet; no arm answers it now. Safe. -/
  | notModelled (mnemonic : String)
deriving DecidableEq, Repr

/-- The machine (10_state.md: "The whole state of the core is six items"), and the capacities it was built with. -/
structure State where
  /-- The Register File x[0..31] (R10); no register is hard-wired (R11). -/
  x : Vector Word 32
  /-- The program counter, a 32-bit signed instruction index (R15). -/
  pc : Word
  /-- The Instruction Memory IM: the entries the host has loaded (R18). -/
  im : Memory
  /-- N, the loaded instruction count (R17). -/
  n : Nat
  /-- The Data Memory DM: the cells that do not hold 0 (R19). -/
  dm : Memory
  /-- The fault register (R20). -/
  fault : Option Cause
  /-- The model's own field: IMEM_WORDS and DMEM_WORDS (R5), constant (log entry 2). -/
  params : Config.Params
deriving DecidableEq, Repr

/-- The state after reset (R24, R170): registers and cells 0, pc 0, N 0, no fault, nothing loaded. The capacities are a
DESIGN CHOICE (log entry 2). -/
def State.reset : State where
  x := Vector.replicate 32 0
  pc := 0
  im := []
  n := 0
  dm := []
  fault := none
  params := Config.largest

end Sys2Proof.Machine
end

