-- ==== Sys2Proof/Machine/Ops.lean ====
section
/-! DEFINITION. The named operations over memory, registers, program counter and fault register that every meaning is
written with, and the one operation that raises a fatal condition. -/
namespace Sys2Proof.Machine

/-! ## Sparse memory -/

/-- What is listed at address `a`. -/
def Memory.lookup : Memory → Nat → Option Word
  | [], _ => none
  | (b, v) :: m, a => if a = b then some v else Memory.lookup m a

/-- List `v` at `a`, keeping addresses rising. -/
def Memory.insert : Memory → Nat → Word → Memory
  | [], a, v => [(a, v)]
  | (b, w) :: m, a, v =>
    if a < b then (a, v) :: (b, w) :: m
    else if a = b then (a, v) :: m
    else (b, w) :: Memory.insert m a v

/-- List nothing at `a`. -/
def Memory.erase : Memory → Nat → Memory
  | [], _ => []
  | (b, w) :: m, a => if a = b then m else (b, w) :: Memory.erase m a

/-- Every listed address is at least `lo`, and they rise strictly. -/
def Memory.risingFrom : Nat → Memory → Bool
  | _, [] => true
  | lo, (b, _) :: m => decide (lo ≤ b) && Memory.risingFrom (b + 1) m

/-- Every listed address is below the capacity. -/
def Memory.below (cap : Nat) (m : Memory) : Bool := m.all fun c => decide (c.1 < cap)

/-! ## The Data Memory: an unlisted cell reads 0, its reset value (10_state.md R19, R24) -/

/-- DM[a]. -/
def Memory.read (m : Memory) (a : Nat) : Word := (Memory.lookup m a).getD 0

/-- DM[a] <- v. A cell that holds 0 is not listed, so equal memories are equal lists. -/
def Memory.write (m : Memory) (a : Nat) (v : Word) : Memory :=
  if v = 0 then Memory.erase m a else Memory.insert m a v

/-- The canonical form of the Data Memory: addresses strictly rising, no cell listed that holds 0. -/
def Memory.wf (m : Memory) : Bool := Memory.risingFrom 0 m && m.all fun c => decide (c.2 ≠ 0)

/-! ## The Instruction Memory: an unlisted entry holds the free value (10_state.md R18, R24; log entry 3) -/

/-- IM[i]. -/
def Memory.readProgram (m : Memory) (i : Nat) : Word := (Memory.lookup m i).getD (Config.unloadedWord i)

/-! ## Registers and program counter -/

/-- x[r] (00_scope.md section 7); no register is hard-wired (R11), and a read never faults (R14). -/
def State.reg (s : State) (r : Reg) : Word := s.x.get r

/-- x[r] <- v. -/
def State.setReg (s : State) (r : Reg) (v : Word) : State := { s with x := s.x.set r.val v r.isLt }

/-- pc <- t. -/
def State.setPc (s : State) (t : Word) : State := { s with pc := t }

/-- IM[i] for the instruction index `i`; Fetch reads it at `pc` (R31). -/
def State.wordAt (s : State) (i : Word) : Word := Memory.readProgram s.im i.toNat

/-! ## Data accesses (20_memory.md R36) -/

/-- The signed address `a` names a data cell: 0 ≤ a < DMEM_WORDS (R32, R36). -/
def State.dataInRange (s : State) (a : Int) : Bool := decide (0 ≤ a ∧ a < s.params.dmemWords)

/-- DM[a] for a cell index. -/
def State.cell (s : State) (a : Nat) : Word := Memory.read s.dm a

/-- DM[a] <- v for a cell index. -/
def State.setCell (s : State) (a : Nat) (v : Word) : State := { s with dm := Memory.write s.dm a v }

/-- MemRead(a, 1). -/
def State.memRead (s : State) (a : Int) : Except Cause Word :=
  if s.dataInRange a then .ok (s.cell a.toNat) else .error (.dataAddressOutOfRange a)

/-- MemWrite(a, 1, v). -/
def State.memWrite (s : State) (a : Int) (v : Word) : Except Cause State :=
  if s.dataInRange a then .ok (s.setCell a.toNat v) else .error (.dataAddressOutOfRange a)

/-! ## Fatal conditions (60_exceptions.md) -/

/-- `raise <Cause>(info)` (00_scope.md section 7; R151, R157): the fault register takes the cause and nothing else
changes; there is no vector, no saved pc, no mode. There is no return from it (R158): `step` of the state it gives is
`Fault.stopped`, and only reset clears the register (HostInterface.lean). -/
def State.raise (s : State) (c : Cause) : State := { s with fault := some c }

/-- The number of a cause (R151, decision D7). -/
def Cause.code : Cause → Nat
  | .invalidInstruction _ _ => 1
  | .noDestination _ _ => 2
  | .dataAddressOutOfRange _ => 3
  | .fetchAddressOutOfRange _ => 4

end Sys2Proof.Machine
end

