-- ==== Sys2Proof/Machine/Operands.lean ====
section
/-! DEFINITION. Every operand form of the ten instructions: the sign-extended immediate (30_encoding.md R54), the fields
of the fetched word (R51), the link register, and the effective address. -/
namespace Sys2Proof.Machine

/-- sext_32 (00_scope.md section 6): the 32-bit value with the signed reading K. -/
def immWord (k : Int) : Word := BitVec.ofInt 32 k

/-- LINK_REG = 31 (R5, R12, decision D4; log entry 9). -/
def linkReg : Reg := 31

/-- pc0: the index the instruction in execution was fetched from; after Fetch `pc = pc0 + 1` (R15, R72). -/
def State.pc0 (s : State) : Word := s.pc - 1

/-- The word in execution: what Fetch read at pc0; no instruction changes IM (R18, R42; log entry 11). -/
def State.fetched (s : State) : Word := s.wordAt s.pc0

/-- The fields of the word in execution with the three an R-format instruction names (R52). -/
@[reducible] def State.fieldsR (s : State) (rd rs rt : Reg) : Fields := { fieldsOf s.fetched with rd := rd, rs := rs, rt := rt }

/-- The fields of the word in execution with the three an I-format instruction names (R52). -/
@[reducible] def State.fieldsI (s : State) (rt rs : Reg) (k : Int) : Fields :=
  { fieldsOf s.fetched with rt := rt, rs := rs, imm := k }

/-- The fields of the word in execution with the one a J-format instruction names (R52). -/
@[reducible] def State.fieldsJ (s : State) (k : Int) : Fields := { fieldsOf s.fetched with imm := k }

/-- The signed cell index of `K($rs)`: s((x[rs] + imm) mod 2^32), not scaled (43_load_store.md R130, R131). -/
def State.effectiveAddress (s : State) (rs : Reg) (k : Int) : Int := (s.reg rs + immWord k).toInt

end Sys2Proof.Machine
end

