-- ==== Sys2Proof/Machine/Datapath.lean ====
section
/-! DEFINITION. The shared datapath after Fetch: Decode, Execute, Memory, Writeback (40_cycle_and_decode.md R73 to R89;
R93 is the whole of it in one piece). It acts on the state Fetch leaves: `pc = pc0 + 1` (log entry 7). -/
namespace Sys2Proof.Machine

/-! ## Decode -/

/-- The Decoded Instruction, made and discarded inside one step (10_state.md R21); `mnemonicText` is dropped, as R21
allows. `aluResult`, `memResult` and `destReg` are values of the stages below. -/
structure Decoded where
  /-- The fetched word. -/
  raw : Word
  /-- The index it was fetched from. -/
  pc0 : Word
  op : Op
  fields : Fields
  format : Format
  signals : Signals
  /-- x[rs] before any write of this step (R78, R79). -/
  operand1 : Word
  /-- x[rt] before any write of this step (R78, R79). -/
  operand2 : Word
deriving DecidableEq, Repr

/-- Decode after recognition (R74, R75, R78): it reads the Register File and changes nothing (R91). -/
def decodeStage (m : Op) (f : Fields) (s : State) : Decoded where
  raw := s.fetched
  pc0 := s.pc0
  op := m
  fields := f
  format := m.format
  signals := Machine.signals m
  operand1 := s.reg f.rs
  operand2 := s.reg f.rt

/-! ## Execute -/

/-- The second ALU operand (R80); the first is always `operand1`. -/
def Decoded.in2 (d : Decoded) : Word := if d.signals.aluSrcIsImmediate then immWord d.fields.imm else d.operand2

/-- `aluResult` (R81); no value under INV. -/
def Decoded.aluResult (d : Decoded) : Option Word := alu d.signals.aluOp d.operand1 d.in2

/-- The Control-Transfer Unit (R82, R88, R140 to R142): `pc` holds pc0 + 1, which `bge` is relative to and `jal`
links. -/
def controlTransfer (d : Decoded) (s : State) : State :=
  match d.signals.branchKind with
  | .none => s
  | .conditional => if resultNonNegative d.aluResult then s.setPc (s.pc + immWord d.fields.imm) else s
  | .unconditional => s.setPc (immWord d.fields.imm)
  | .call => (s.setReg linkReg s.pc).setPc (immWord d.fields.imm)

/-! ## Memory -/

/-- The read of the Memory stage (R83): `memResult`, or the raised cause. -/
def memoryRead (d : Decoded) (s : State) : Except Cause (Option Word) :=
  match d.signals.memRead, d.aluResult with
  | true, some ea => (s.memRead ea.toInt).map some
  | true, none => .ok none -- no row of the control table (log entry 10)
  | false, _ => .ok none

/-- The write of the Memory stage (R84): the value stored is `operand2`, x[rt]. -/
def memoryWrite (d : Decoded) (s : State) : Except Cause State :=
  match d.signals.memWrite, d.aluResult with
  | true, some ea => s.memWrite ea.toInt d.operand2
  | true, none => .ok s -- no row of the control table (log entry 10)
  | false, _ => .ok s

/-! ## Writeback -/

/-- Destination resolution (R86). -/
def Decoded.destReg (d : Decoded) : Option Reg :=
  match d.signals.destRegSelect with
  | .rd => some d.fields.rd
  | .rt => some d.fields.rt
  | .link => some linkReg
  | .none => none

/-- The value the generic register write stores (R87). -/
def Decoded.writeValue (d : Decoded) (memResult : Option Word) : Option Word :=
  match d.signals.memToReg with
  | .mem => memResult
  | .alu => d.aluResult

/-- The generic register write (R87), which `jal` bypasses (R88), with the guard of R89. -/
def writeback (d : Decoded) (memResult : Option Word) (s : State) : State :=
  if d.signals.regWrite && d.signals.branchKind != .call then
    match d.destReg, d.writeValue memResult with
    | none, _ => s.raise (.noDestination d.pc0.toInt d.raw)
    | some r, some v => s.setReg r v
    | some _, none => s -- no row of the control table (log entry 10)
  else s

/-! ## The stages in order -/

/-- R93 from Decode on: a raise ends the step, so later stages are not reached (R156). -/
def datapath (m : Op) (f : Fields) (s : State) : State :=
  let d := decodeStage m f s
  let s1 := controlTransfer d s
  match memoryRead d s1 with
  | .error c => s1.raise c
  | .ok memResult =>
    match memoryWrite d s1 with
    | .error c => s1.raise c
    | .ok s2 => writeback d memResult s2

end Sys2Proof.Machine
end

