-- ==== Sys2Proof/Machine/ArithmeticLogic.lean ====
section
/-! DEFINITION. The meanings of `add`, `or`, `xor`, `slt`, `subi` (42_arithmetic_logic.md R120 to R124), on the state
Fetch leaves (`pc = pc0 + 1`). None of them raises anything. -/
namespace Sys2Proof.Machine

/-- R120: x[rd] <- (x[rs] + x[rt]) mod 2^32. -/
def execAdd (rd rs rt : Reg) (s : State) : Host.Outcome State Fault Refusal :=
  .next (datapath .add (s.fieldsR rd rs rt) s)

/-- R121: x[rd] <- x[rs] | x[rt]. -/
def execOr (rd rs rt : Reg) (s : State) : Host.Outcome State Fault Refusal :=
  .next (datapath .or (s.fieldsR rd rs rt) s)

/-- R122: x[rd] <- x[rs] ^ x[rt]. -/
def execXor (rd rs rt : Reg) (s : State) : Host.Outcome State Fault Refusal :=
  .next (datapath .xor (s.fieldsR rd rs rt) s)

/-- R123: x[rd] <- 1 if s(x[rs]) < s(x[rt]) else 0. -/
def execSlt (rd rs rt : Reg) (s : State) : Host.Outcome State Fault Refusal :=
  .next (datapath .slt (s.fieldsR rd rs rt) s)

/-- R124: x[rt] <- (x[rs] - imm) mod 2^32. -/
def execSubi (rt rs : Reg) (k : Int) (s : State) : Host.Outcome State Fault Refusal :=
  .next (datapath .subi (s.fieldsI rt rs k) s)

end Sys2Proof.Machine
end

