-- ==== Sys2Proof/Machine/ControlTransfer.lean ====
section
/-! DEFINITION. The meanings of `bge`, `j`, `jal` (44_control_transfer.md R140 to R142), on the state Fetch leaves
(`pc = pc0 + 1`). None raises anything in its own step (R144). -/
namespace Sys2Proof.Machine

/-- R140: if s(x[rs] - x[rt]) >= 0 then pc <- pc0 + 1 + s(imm). -/
def execBge (rs rt : Reg) (k : Int) (s : State) : Host.Outcome State Fault Refusal :=
  .next (datapath .bge (s.fieldsI rt rs k) s)

/-- R141: pc <- s(imm). -/
def execJ (k : Int) (s : State) : Host.Outcome State Fault Refusal :=
  .next (datapath .j (s.fieldsJ k) s)

/-- R142: x[LINK_REG] <- pc0 + 1; pc <- s(imm). -/
def execJal (k : Int) (s : State) : Host.Outcome State Fault Refusal :=
  .next (datapath .jal (s.fieldsJ k) s)

end Sys2Proof.Machine
end

