-- ==== Sys2Proof/Machine/LoadStore.lean ====
section
/-! DEFINITION. The meanings of `lw` and `sw` (43_load_store.md R130, R131), on the state Fetch leaves. An address out of
range raises DataAddressOutOfRange, a next state with the fault register set (60_exceptions.md R154). -/
namespace Sys2Proof.Machine

/-- R130: x[rt] <- DM[s(x[rs] + imm)], or raise. -/
def execLw (rt rs : Reg) (k : Int) (s : State) : Host.Outcome State Fault Refusal :=
  .next (datapath .lw (s.fieldsI rt rs k) s)

/-- R131: DM[s(x[rs] + imm)] <- x[rt], or raise. -/
def execSw (rt rs : Reg) (k : Int) (s : State) : Host.Outcome State Fault Refusal :=
  .next (datapath .sw (s.fieldsI rt rs k) s)

end Sys2Proof.Machine
end

