-- ==== Sys2Proof/Machine/Dispatch.lean ====
section
/-! DEFINITION. One arm per instruction (opcode_table.json): Decode, Execute, Memory and Writeback of it on the state
Fetch leaves. -/
namespace Sys2Proof.Machine

def exec (i : Instr) (s : State) : Host.Outcome State Fault Refusal :=
  match i with
  | .add rd rs rt => Sys2Proof.Machine.execAdd rd rs rt s
  | .or rd rs rt => Sys2Proof.Machine.execOr rd rs rt s
  | .xor rd rs rt => Sys2Proof.Machine.execXor rd rs rt s
  | .slt rd rs rt => Sys2Proof.Machine.execSlt rd rs rt s
  | .subi rt rs k => Sys2Proof.Machine.execSubi rt rs k s
  | .lw rt rs k => Sys2Proof.Machine.execLw rt rs k s
  | .sw rt rs k => Sys2Proof.Machine.execSw rt rs k s
  | .bge rs rt k => Sys2Proof.Machine.execBge rs rt k s
  | .j k => Sys2Proof.Machine.execJ k s
  | .jal k => Sys2Proof.Machine.execJal k s

end Sys2Proof.Machine
end

