-- ==== Sys2Proof/Machine/Driver.lean ====
section
/-! DEFINITION. The Cycle Driver: run status (10_state.md R25), Fetch (40_cycle_and_decode.md R72), the invalid word
(R73), and what a machine that is not running answers. -/
namespace Sys2Proof.Machine

/-- The status of the machine, a function of `pc`, `N` and `fault` (R25). -/
inductive Status where
  | running | halted | faulted
deriving DecidableEq, Repr

/-- pc >= N, a signed comparison of integers (R25, R71; 90_conflicts.md C7). -/
def State.pastEnd (s : State) : Bool := decide ((s.n : Int) ≤ s.pc.toInt)

/-- R25. -/
def State.status (s : State) : Status :=
  match s.fault with
  | some _ => .faulted
  | none => if s.pastEnd then .halted else .running

/-- What Fetch hands to Decode. -/
structure Fetched where
  /-- The index the word was fetched from. -/
  pc0 : Word
  /-- The word. -/
  word : Word
  /-- The state after Fetch: `pc = pc0 + 1`. -/
  after : State
deriving DecidableEq, Repr

/-- Fetch (R72): a negative `pc` raises and leaves it as it is (R37); otherwise the word at `pc`, and `pc` advanced. -/
def State.fetch (s : State) : Except Cause Fetched :=
  if s.pc.toInt < 0 then .error (.fetchAddressOutOfRange s.pc.toInt)
  else .ok { pc0 := s.pc, word := s.wordAt s.pc, after := s.setPc (s.pc + 1) }

/-- Decode of an unrecognised word (R73, R152): Fetch has advanced `pc`, nothing else has changed. -/
def Fetched.raiseInvalid (f : Fetched) : State := f.after.raise (.invalidInstruction f.pc0.toInt f.word)

/-- A halted machine changes no state (R25): its step gives the same state (DESIGN CHOICE, log entry 6). -/
def haltedStep (s : State) : Host.Outcome State Fault Refusal := .next s

/-- A faulted machine takes no step, and its state is not final (R158): its step gives none (DESIGN CHOICE, log
entry 5). -/
def faultedStep (c : Cause) : Host.Outcome State Fault Refusal := .fault (.stopped c)

end Sys2Proof.Machine
end

