-- ==== Sys2Proof/Machine/Step.lean ====
section
/-! DEFINITION. The step (40_cycle_and_decode.md R70 to R73, R93), and the placing of a word where it fetches. -/
namespace Sys2Proof.Machine

/-- One step. A faulted machine takes none (R158); a halted one changes nothing (R25); a running one carries one
instruction through Fetch, Decode, Execute, Memory, Writeback (R70). -/
def step (s : State) : Host.Outcome State Fault Refusal :=
  match s.fault with
  | some c => faultedStep c
  | none =>
    if s.pastEnd then haltedStep s
    else
      match s.fetch with
      | .error c => .next (s.raise c)
      | .ok f =>
        match decodeWord f.word with
        | .error _ => .next f.raiseInvalid
        | .ok i => exec i f.after

/-- `pc` if the next step can fetch there (0 ≤ pc < IMEM_WORDS), else 0. -/
def State.fetchIndex (s : State) : Word :=
  if 0 ≤ s.pc.toInt ∧ s.pc.toInt < s.params.imemWords then s.pc else 0

/-- The state with the table word `w` stored where the next step fetches, and what the fetch needs: the word counted as
loaded (N), no fault, a `pc` inside IM. It stands for the host's load (R173, R174; log entry 12). -/
def State.withFetchWord (s : State) (nbits w : Nat) : State :=
  { s with
    pc := s.fetchIndex
    im := Memory.insert s.im s.fetchIndex.toNat (tableWord nbits w)
    n := max s.n (s.fetchIndex.toNat + 1)
    fault := none }

end Sys2Proof.Machine
end

