-- ==== Sys2Proof/Machine/HostInterface.lean ====
section
/-! DEFINITION. What the host may do between reset and the first step, and after the run (70_reset_and_hazards.md R170 to
R177; decision D9). None of it happens during a step (R176; log entry 14). -/
namespace Sys2Proof.Machine

/-- Reset, at any time, of any state (R170): the state of R24; the capacities are the hardware's and stay. -/
def State.resetEvent (s : State) : State := { State.reset with params := s.params }

/-- The program in the Instruction Memory from index `i` on, in order (R173). -/
def programMemory : Nat → List Word → Memory
  | _, [] => []
  | i, w :: ws => (i, w) :: programMemory (i + 1) ws

/-- The host loads a program (R173, R174): IM[0..N-1] and N. A program that does not fit never reaches the core
(decision D6). -/
def State.load (s : State) (prog : List Word) : Option State :=
  if prog.length ≤ s.params.imemWords then some { s with im := programMemory 0 prog, n := prog.length } else none

/-- The host preloads a data cell (R175); a cell that does not exist cannot be preloaded. -/
def State.preloadCell (s : State) (a : Nat) (v : Word) : Option State :=
  if a < s.params.dmemWords then some (s.setCell a v) else none

/-- The host preloads a list of data cells, in order (R175). -/
def State.preloadCells (s : State) : List (Nat × Word) → Option State
  | [] => some s
  | (a, v) :: cs =>
    match s.preloadCell a v with
    | some t => t.preloadCells cs
    | none => none

/-- A launch (R175, D9): reset, the program, the initial Register File, the initial data cells (the rest 0). -/
def launch (p : Config.Params) (prog : List Word) (x0 : Vector Word 32) (cells : List (Nat × Word)) : Option State :=
  match ({ State.reset with params := p, x := x0 } : State).load prog with
  | some s => s.preloadCells cells
  | none => none

/-- What the host reads after the end (R177). -/
structure ReadOut where
  x : Vector Word 32
  dm : Memory
  pc : Word
  fault : Option Cause
deriving DecidableEq, Repr

/-- The read-out of a state (R177). -/
def State.readOut (s : State) : ReadOut := { x := s.x, dm := s.dm, pc := s.pc, fault := s.fault }

/-- The pattern a line of the program file denotes (30_encoding.md R63, decision D14: advice to a host): v mod 2^32 for
-2^31 ≤ v < 2^32, else the loader's error. -/
def patternOfLine (v : Int) : Option Word :=
  if -(2 ^ 31) ≤ v ∧ v < 2 ^ 32 then some (BitVec.ofInt 32 v) else none

end Sys2Proof.Machine
end

