-- ==== Sys2Proof/Safety.lean ====
section
/-! DEFINITION. The terms claims are stated in: the invariant of the state, what the fault register may say, an
instruction's destination, a machine about to execute a word, and the end of a run. -/
namespace Sys2Proof.Machine

/-! ## Invariants -/

/-- R16: pc stays between -32768 and N + 32767. -/
abbrev State.pcInRange (s : State) : Prop := -32768 ≤ s.pc.toInt ∧ s.pc.toInt ≤ s.n + 32767

/-- The invariant of the machine: capacities R6 allows, N ≤ IMEM_WORDS (R17), both memories in canonical form and inside
their capacities (R18, R19), pc in its range (R16). -/
structure State.Inv (s : State) : Prop where
  params : s.params.wf
  count : s.n ≤ s.params.imemWords
  imRising : Memory.risingFrom 0 s.im = true
  imBelow : Memory.below s.params.imemWords s.im = true
  dmWf : Memory.wf s.dm = true
  dmBelow : Memory.below s.params.dmemWords s.dm = true
  pc : s.pcInRange

/-- The fault register tells the truth about the state it stands in (R152 to R155): the word at pc - 1 is invalid; or the
`lw` or `sw` at pc - 1 has an address out of range; or pc is negative; NoDestination is never recorded (R153). -/
def State.faultExplained (s : State) : Prop :=
  match s.fault with
  | none => True
  | some (.invalidInstruction p w) =>
    0 ≤ p ∧ p < s.n ∧ s.pc.toInt = p + 1 ∧ s.fetched = w ∧ ∃ e, decodeWord w = .error e
  | some (.noDestination _ _) => False
  | some (.dataAddressOutOfRange a) =>
    0 < s.pc.toInt ∧ s.pc.toInt ≤ s.n ∧ ¬ (0 ≤ a ∧ a < s.params.dmemWords) ∧
      ∃ rt rs k, (decodeWord s.fetched = .ok (.lw rt rs k) ∨ decodeWord s.fetched = .ok (.sw rt rs k)) ∧
        a = s.effectiveAddress rs k
  | some (.fetchAddressOutOfRange p) => p < 0 ∧ s.pc.toInt = p

/-! ## What an instruction may change -/

/-- The register an instruction writes (R13). -/
def destinationOf (i : Instr) : Option Reg :=
  match i with
  | .add rd _ _ | .or rd _ _ | .xor rd _ _ | .slt rd _ _ => some rd
  | .subi rt _ _ | .lw rt _ _ => some rt
  | .sw _ _ _ | .bge _ _ _ | .j _ => none
  | .jal _ => some linkReg

/-- The signed address an instruction stores to, from the registers before it (R131); only `sw` stores. -/
def storeAddressOf (i : Instr) (s : State) : Option Int :=
  match i with
  | .sw _ rs k => some (s.effectiveAddress rs k)
  | .add _ _ _ | .or _ _ _ | .xor _ _ _ | .slt _ _ _ | .subi _ _ _ | .lw _ _ _ | .bge _ _ _ | .j _ | .jal _ => none

/-- The instruction is one of the three control transfers (R143). -/
def isTransfer (i : Instr) : Bool :=
  match i with
  | .bge _ _ _ | .j _ | .jal _ => true
  | .add _ _ _ | .or _ _ _ | .xor _ _ _ | .slt _ _ _ | .subi _ _ _ | .lw _ _ _ | .sw _ _ _ => false

/-! ## The three layouts, bit by bit (30_encoding.md R53), written without the encoder -/

/-- R-format: opcode, rs, rt, rd, five ignored bits, func. -/
def layoutR (opcode : BitVec 6) (rs rt rd : Reg) (ignored : BitVec 5) (func : BitVec 6) : Word :=
  opcode ++ BitVec.ofNat 5 rs.val ++ BitVec.ofNat 5 rt.val ++ BitVec.ofNat 5 rd.val ++ ignored ++ func

/-- I-format: opcode, rs, rt, imm. -/
def layoutI (opcode : BitVec 6) (rs rt : Reg) (imm : BitVec 16) : Word :=
  opcode ++ BitVec.ofNat 5 rs.val ++ BitVec.ofNat 5 rt.val ++ imm

/-- J-format: opcode, ten ignored bits, imm. -/
def layoutJ (opcode : BitVec 6) (ignored : BitVec 10) (imm : BitVec 16) : Word :=
  opcode ++ ignored ++ imm

/-! ## Running, and the end of a run -/

/-- The machine is running with a `pc` it can fetch at, and the word there is `w` (R25, R72). -/
structure State.AboutToExecute (s : State) (w : Word) : Prop where
  running : s.status = .running
  nonneg : 0 ≤ s.pc.toInt
  word : s.wordAt s.pc = w

/-- The end of the run from `s` (R182): the first state reached by steps that is halted. A faulted state is none
(R158). -/
def EndOfRun (s t : State) : Prop :=
  ∃ k, Host.Core.run Sys2Proof.core k s = .next t ∧ t.status = .halted ∧
    ∀ j u, j < k → Host.Core.run Sys2Proof.core j s = .next u → u.status ≠ .halted

end Sys2Proof.Machine
end

