-- ==== Sys2Proof/Certificates/Slice0/Obligations.lean ====
section
/-! DEFINITION. The statements for the provers. Each docstring names the rule of spec/ it formalises; where a clause
rests on a choice of the model, it names the log entry. -/

section
open Sys2Proof Sys2Proof.Machine

/-! ## Reset, loading, run status -/

/-- 10_state.md R24: the state after reset, whichever state it is applied to. IM is "unspecified" there, so nothing is
said of it; with N = 0 the machine is halted. -/
def Obligations.ResetGivesEveryPieceOfState : Prop :=
  ∀ s r : State, r = State.reset ∨ r = s.resetEvent →
    (∀ q, r.reg q = 0) ∧ r.pc = 0 ∧ (∀ a, r.cell a = 0) ∧ r.n = 0 ∧ r.fault = none ∧ r.status = .halted

/-- The invariant of the machine holds at reset (its capacities are the model's choice, log entry 2). -/
def Obligations.ResetSatisfiesInvariant : Prop := State.reset.Inv ∧ State.reset.faultExplained

/-- 70_reset_and_hazards.md R173 to R175: a launch places the program in order from index 0, sets N, starts at pc 0 with
no fault and with the registers given; with no cell preloaded every cell is 0; a program that does not fit is rejected. -/
def Obligations.LaunchPlacesProgramInOrder : Prop :=
  ∀ (p : Config.Params) (prog : List Word) (x0 : Vector Word 32),
    (p.imemWords < prog.length → ∀ cells, launch p prog x0 cells = none) ∧
    (∀ cells s, launch p prog x0 cells = some s →
      (∀ (k : Nat) (h : k < prog.length), Memory.readProgram s.im k = prog[k]) ∧ s.n = prog.length ∧ s.pc = 0 ∧
        s.fault = none ∧ (∀ r : Reg, s.reg r = x0.get r) ∧ s.params = p) ∧
    (prog.length ≤ p.imemWords → ∃ s, launch p prog x0 [] = some s ∧ ∀ a, s.cell a = 0)

/-- 70_reset_and_hazards.md R175: a preloaded cell holds the value given and every other cell is as before. -/
def Obligations.PreloadSetsOneCell : Prop :=
  ∀ (s : State) (a : Nat) (v : Word), Memory.wf s.dm = true →
    (a < s.params.dmemWords → ∃ t, s.preloadCell a v = some t ∧
      (∀ b, t.cell b = if b = a then v else s.cell b) ∧ (∀ r, t.reg r = s.reg r) ∧
        t.pc = s.pc ∧ t.im = s.im ∧ t.n = s.n ∧ t.fault = s.fault ∧ t.params = s.params) ∧
    (s.params.dmemWords ≤ a → s.preloadCell a v = none)

/-- 10_state.md R25: the status is a function of `pc`, N and `fault`; a halted or faulted machine changes no state. -/
def Obligations.StatusAndRestingMachine : Prop :=
  ∀ s : State,
    (s.status = .faulted ↔ s.fault ≠ none) ∧
    (s.status = .halted ↔ s.fault = none ∧ (s.n : Int) ≤ s.pc.toInt) ∧
    (s.status = .running ↔ s.fault = none ∧ s.pc.toInt < s.n) ∧
    (s.status ≠ .running → ∀ t, step s = .next t → t = s)

/-- 60_exceptions.md R158: a faulted machine takes no step, ever; however long it runs the fault it holds stands. That it
shows as the stop `Fault.stopped` is the model's choice (log entry 5). -/
def Obligations.FaultedMachineStaysStopped : Prop :=
  ∀ (s : State) (c : Cause), s.fault = some c →
    ∀ k, Host.Core.run Sys2Proof.core (k + 1) s = .fault (.stopped c)

/-- 70_reset_and_hazards.md R177: after the end of a run the whole state is stable. -/
def Obligations.HaltedStateIsStable : Prop :=
  ∀ s : State, s.status = .halted → ∀ k, Host.Core.run Sys2Proof.core k s = .next s

/-- 70_reset_and_hazards.md R182 with 00_scope.md R4: a run has at most one end, and it is no faulted state (R158). -/
def Obligations.EndOfRunIsUnique : Prop :=
  ∀ s t u : State, EndOfRun s t → EndOfRun s u → t = u ∧ t.fault = none ∧ (t.n : Int) ≤ t.pc.toInt

/-! ## Fetch and decode -/

/-- 40_cycle_and_decode.md R70, R72, R73: a step of a running machine is `exec` of the instruction decoded from the word
at `pc`, on the state with `pc` advanced by one. -/
def Obligations.StepRunsDecodedInstruction : Prop :=
  ∀ (s : State) (w : Word) (i : Instr), s.AboutToExecute w → decodeWord w = .ok i →
    step s = exec i (s.setPc (s.pc + 1))

/-- 20_memory.md R37: a running machine with a negative `pc` raises FetchAddressOutOfRange, nothing else changes; a
running machine with `pc` ≥ 0 is inside the Instruction Memory; at or beyond N there is no fetch. That no other fetch is out of range is the spec's own
inference (R37: "So the only out-of-range fetch is the negative one", derived from R17 and R25). -/
def Obligations.NegativeFetchRaises : Prop :=
  ∀ s : State,
    (s.status = .running → s.pc.toInt < 0 →
      step s = .next { s with fault := some (.fetchAddressOutOfRange s.pc.toInt) }) ∧
    (s.n ≤ s.params.imemWords → s.status = .running → 0 ≤ s.pc.toInt → s.pc.toInt < s.params.imemWords) ∧
    (s.fault = none → (s.n : Int) ≤ s.pc.toInt → ∀ t, step s = .next t → t.fault = none ∧ t.pc = s.pc)

/-- 60_exceptions.md R152: a word that matches none of the ten operations raises InvalidInstruction with `pc` = pc0 + 1
and everything else as before; a word beyond the program never does. -/
def Obligations.UnrecognisedWordRaises : Prop :=
  (∀ (s : State) (w : Word), s.AboutToExecute w → (∀ m : Op, w &&& m.mask ≠ m.matchBits) →
    step s = .next { s with pc := s.pc + 1, fault := some (.invalidInstruction s.pc.toInt w) }) ∧
  ∀ s : State, s.fault = none → (s.n : Int) ≤ s.pc.toInt → ∀ t, step s = .next t → t.fault = none

/-- 30_encoding.md R51, on a word written out bit by bit: every field is cut from its own place, and imm is the
sign extension of bits 15:0 (which rd and func lie inside). -/
def Obligations.FieldsAreCutFromTheirPlaces : Prop :=
  ∀ (opcode func : BitVec 6) (rs rt rd : Reg) (ignored : BitVec 5),
    fieldsOf (layoutR opcode rs rt rd ignored func) =
      { opcode := opcode, rs := rs, rt := rt, rd := rd, func := func,
        imm := ((BitVec.ofNat 5 rd.val ++ ignored ++ func : BitVec 16).signExtend 32).toInt }

/-- 30_encoding.md R56: the procedure of opcode and func lookups is the mask and match test of the table, with the masks
the rule gives; a word no lookup finds is invalid. -/
def Obligations.RecognitionIsMaskAndMatch : Prop :=
  (∀ (w : Word) (m : Op), opOf w = .ok m ↔ w &&& m.mask = m.matchBits) ∧
  (∀ w : Word, (∀ m : Op, w &&& m.mask ≠ m.matchBits) → ∃ e, opOf w = .error e ∧ decodeWord w = .error e) ∧
  ∀ m : Op, (m.format = .R → m.mask = 0xFC00003F#32) ∧ (m.format ≠ .R → m.mask = 0xFC000000#32)

/-- 30_encoding.md R58: no word matches two operations. -/
def Obligations.NoWordMatchesTwoOperations : Prop :=
  ∀ (w : Word) (m1 m2 : Op), w &&& m1.mask = m1.matchBits → w &&& m2.mask = m2.matchBits → m1 = m2

/-- 30_encoding.md R60: the invalid words are exactly those of the list, the all-zero and the all-one word among them. -/
def Obligations.InvalidWordsAreThoseListed : Prop :=
  (∀ w : Word, (∃ e, decodeWord w = .error e) ↔
    (w.extractLsb' 26 6 ∉ [0x00#6, 0x02#6, 0x03#6, 0x18#6, 0x19#6, 0x23#6, 0x2B#6] ∨
      (w.extractLsb' 26 6 = 0x00#6 ∧ w.extractLsb' 0 6 ∉ [0x20#6, 0x25#6, 0x26#6, 0x2A#6]))) ∧
  decodeWord 0x00000000#32 = .error (.unknownFunc 0) ∧ decodeWord 0xFFFFFFFF#32 = .error (.unknownOpcode 0x3F)

/-- 30_encoding.md R59: bits 10:6 of an R-format word and bits 25:16 of a J-format word change nothing; two I-format
words that decode alike are the same word. -/
def Obligations.IgnoredBitsChangeNothing : Prop :=
  (∀ (func : BitVec 6) (rs rt rd : Reg) (b c : BitVec 5), func ∈ [0x20#6, 0x25#6, 0x26#6, 0x2A#6] →
    decodeWord (layoutR 0x00 rs rt rd b func) = decodeWord (layoutR 0x00 rs rt rd c func)) ∧
  (∀ (opcode : BitVec 6) (b c : BitVec 10) (imm : BitVec 16), opcode ∈ [0x02#6, 0x03#6] →
    decodeWord (layoutJ opcode b imm) = decodeWord (layoutJ opcode c imm)) ∧
  (∀ (v w : Word) (i : Instr), i.op.format = .I → decodeWord v = .ok i → decodeWord w = .ok i → v = w)

/-- 30_encoding.md R56, R64: every well-formed instruction, with every operand its encoding admits, is read back. -/
def Obligations.DecodeReadsBackEncode : Prop :=
  ∀ i : Instr, i.wf = true → decodeWord (encode i) = .ok i

/-- 30_encoding.md R53, R59, R64, the other direction: what a word decodes to is well formed, and its encoding is the
word with the bits its format ignores at zero. -/
def Obligations.EncodeRebuildsDecodedWord : Prop :=
  ∀ (w : Word) (i : Instr), decodeWord w = .ok i → i.wf = true ∧ encode i = w &&& i.op.meaningfulBits

/-- 95_test_vectors.md V-dec, words of every family read as the instructions they stand for. -/
def Obligations.WordsOfTheSpecDecode : Prop :=
  decodeWord 0x00221820#32 = .ok (.add 3 1 2) ∧ decodeWord 0x0022182A#32 = .ok (.slt 3 1 2) ∧
  decodeWord 0x60220003#32 = .ok (.subi 2 1 3) ∧ decodeWord 0x8C22FFFE#32 = .ok (.lw 2 1 (-2)) ∧
  decodeWord 0xAC020000#32 = .ok (.sw 2 0 0) ∧ decodeWord 0x6422FFFD#32 = .ok (.bge 1 2 (-3)) ∧
  decodeWord 0x0BFF0005#32 = .ok (.j 5) ∧ decodeWord 0x0C00FFFE#32 = .ok (.jal (-2))

/-! ## The datapath -/

/-- 40_cycle_and_decode.md R93, R91: the step of a running machine is the datapath on the operation and the fields of the
fetched word alone, after Fetch. -/
def Obligations.StepIsTheDatapathOfTheWord : Prop :=
  ∀ (s : State) (w : Word) (m : Op), s.AboutToExecute w → opOf w = .ok m →
    step s = .next (datapath m (fieldsOf w) (s.setPc (s.pc + 1)))

/-- 40_cycle_and_decode.md R76 (with R77 for n/a and R74 for the format column): the control table, row for row, columns
format, aluOp, memRead, memWrite, memToReg, aluSrcIsImmediate, branchKind, regWrite, destRegSelect. -/
def Obligations.ControlTableRows : Prop :=
  (Op.format .add = .R ∧ signals .add = ⟨.add, false, false, .alu, false, .none, true, .rd⟩) ∧
  (Op.format .or = .R ∧ signals .or = ⟨.or, false, false, .alu, false, .none, true, .rd⟩) ∧
  (Op.format .xor = .R ∧ signals .xor = ⟨.xor, false, false, .alu, false, .none, true, .rd⟩) ∧
  (Op.format .slt = .R ∧ signals .slt = ⟨.slt, false, false, .alu, false, .none, true, .rd⟩) ∧
  (Op.format .subi = .I ∧ signals .subi = ⟨.sub, false, false, .alu, true, .none, true, .rt⟩) ∧
  (Op.format .lw = .I ∧ signals .lw = ⟨.add, true, false, .mem, true, .none, true, .rt⟩) ∧
  (Op.format .sw = .I ∧ signals .sw = ⟨.add, false, true, .alu, true, .none, false, .none⟩) ∧
  (Op.format .bge = .I ∧ signals .bge = ⟨.sub, false, false, .alu, false, .conditional, false, .none⟩) ∧
  (Op.format .j = .J ∧ signals .j = ⟨.inv, false, false, .alu, false, .unconditional, false, .none⟩) ∧
  (Op.format .jal = .J ∧ signals .jal = ⟨.inv, false, false, .alu, false, .call, true, .link⟩)

/-- 40_cycle_and_decode.md R78: Decode reads x[w[25:21]] and x[w[20:16]] for every word, whatever its format, before any
write. -/
def Obligations.DecodeSnapshotsBothOperands : Prop :=
  ∀ (m : Op) (w : Word) (s : State) (rs rt : Reg),
    rs.val = (w.extractLsb' 21 5).toNat → rt.val = (w.extractLsb' 16 5).toNat →
      (decodeStage m (fieldsOf w) s).operand1 = s.reg rs ∧ (decodeStage m (fieldsOf w) s).operand2 = s.reg rt

/-- 40_cycle_and_decode.md R85: load and store are mutually exclusive; the eight instructions with neither make no access
and raise nothing. -/
def Obligations.OnlyLoadAndStoreAccessMemory : Prop :=
  (∀ m : Op, ¬ ((signals m).memRead = true ∧ (signals m).memWrite = true)) ∧
  ∀ (i : Instr) (s t : State), (signals i.op).memRead = false → (signals i.op).memWrite = false →
    exec i s = .next t → t.dm = s.dm ∧ t.fault = s.fault

/-- 40_cycle_and_decode.md R88: for a `jal` the Writeback stage performs no write. -/
def Obligations.WritebackPassesJalBy : Prop :=
  ∀ (f : Fields) (s u : State) (memResult : Option Word), writeback (decodeStage .jal f s) memResult u = u

/-- 60_exceptions.md R153: no program can raise NoDestination. -/
def Obligations.NoDestinationIsUnreachable : Prop :=
  ∀ (s t : State) (p : Int) (w : Word), step s = .next t → t.fault ≠ some (.noDestination p w)

/-! ## The ALU -/

/-- 41_alu.md R102 to R107, R109: each operation bit by bit or modulo 2^32, on every pair of words; INV has no result;
which instruction selects which operation. -/
def Obligations.AluBitwiseAndModular : Prop :=
  (∀ a b : Word,
    (∃ r, alu .and a b = some r ∧ ∀ i, r.getLsbD i = (a.getLsbD i && b.getLsbD i)) ∧
    (∃ r, alu .or a b = some r ∧ ∀ i, r.getLsbD i = (a.getLsbD i || b.getLsbD i)) ∧
    (∃ r, alu .xor a b = some r ∧ ∀ i, r.getLsbD i = (a.getLsbD i != b.getLsbD i)) ∧
    (∃ r, alu .add a b = some r ∧ r.toNat = (a.toNat + b.toNat) % 2 ^ 32 ∧ r = BitVec.ofInt 32 (a.toInt + b.toInt)) ∧
    (∃ r, alu .sub a b = some r ∧ (r.toNat : Int) = ((a.toNat : Int) - b.toNat) % 2 ^ 32) ∧
    (∃ r, alu .not a b = some r ∧ ∀ i, i < 32 → r.getLsbD i = !a.getLsbD i) ∧
    alu .inv a b = none) ∧
  ∀ m : Op,
    (signals m).aluOp ≠ .and ∧ (signals m).aluOp ≠ .not ∧
    ((signals m).aluOp = .or ↔ m = .or) ∧ ((signals m).aluOp = .xor ↔ m = .xor) ∧
    ((signals m).aluOp = .add ↔ m = .add ∨ m = .lw ∨ m = .sw) ∧
    ((signals m).aluOp = .sub ↔ m = .subi ∨ m = .bge) ∧ ((signals m).aluOp = .inv ↔ m = .j ∨ m = .jal)

/-- 41_alu.md R108: SLT compares the signed readings exactly, whatever the wrapped difference. -/
def Obligations.SltComparesSignedReadings : Prop :=
  ∀ a b : Word,
    (a.toInt < b.toInt → alu .slt a b = some 0x00000001#32) ∧ (b.toInt ≤ a.toInt → alu .slt a b = some 0x00000000#32) ∧
    ∀ m : Op, (signals m).aluOp = .slt ↔ m = .slt

/-- 44_control_transfer.md R140, corner case (a): the sign test of the wrapped difference agrees with the signed
comparison exactly when the mathematical difference fits in 32 bits. -/
def Obligations.BranchTestIsExactWithoutOverflow : Prop :=
  ∀ a b : Word,
    (resultNonNegative (alu .sub a b) = decide (b.toInt ≤ a.toInt)) ↔
      (-(2 ^ 31) ≤ a.toInt - b.toInt ∧ a.toInt - b.toInt < 2 ^ 31)

/-! ## The instructions: `exec` on every state, and the step on every word of the encoding -/

/-- 42_arithmetic_logic.md R120. -/
def Obligations.AddFollowsItsRule : Prop :=
  (∀ (rd rs rt : Reg) (s : State), exec (.add rd rs rt) s = .next (s.setReg rd (s.reg rs + s.reg rt))) ∧
  (∀ (rd rs rt : Reg) (ignored : BitVec 5) (s : State),
    s.AboutToExecute (layoutR 0b000000 rs rt rd ignored 0b100000) →
      step s = .next ((s.setPc (s.pc + 1)).setReg rd (s.reg rs + s.reg rt))) ∧
  signals .add = ⟨.add, false, false, .alu, false, .none, true, .rd⟩

/-- 42_arithmetic_logic.md R121. -/
def Obligations.OrFollowsItsRule : Prop :=
  (∀ (rd rs rt : Reg) (s : State), exec (.or rd rs rt) s = .next (s.setReg rd (s.reg rs ||| s.reg rt))) ∧
  (∀ (rd rs rt : Reg) (ignored : BitVec 5) (s : State),
    s.AboutToExecute (layoutR 0b000000 rs rt rd ignored 0b100101) →
      step s = .next ((s.setPc (s.pc + 1)).setReg rd (s.reg rs ||| s.reg rt))) ∧
  signals .or = ⟨.or, false, false, .alu, false, .none, true, .rd⟩

/-- 42_arithmetic_logic.md R122. -/
def Obligations.XorFollowsItsRule : Prop :=
  (∀ (rd rs rt : Reg) (s : State), exec (.xor rd rs rt) s = .next (s.setReg rd (s.reg rs ^^^ s.reg rt))) ∧
  (∀ (rd rs rt : Reg) (ignored : BitVec 5) (s : State),
    s.AboutToExecute (layoutR 0b000000 rs rt rd ignored 0b100110) →
      step s = .next ((s.setPc (s.pc + 1)).setReg rd (s.reg rs ^^^ s.reg rt))) ∧
  signals .xor = ⟨.xor, false, false, .alu, false, .none, true, .rd⟩

/-- 42_arithmetic_logic.md R123. -/
def Obligations.SltFollowsItsRule : Prop :=
  (∀ (rd rs rt : Reg) (s : State),
    exec (.slt rd rs rt) s = .next (s.setReg rd (if (s.reg rs).toInt < (s.reg rt).toInt then 1 else 0))) ∧
  (∀ (rd rs rt : Reg) (ignored : BitVec 5) (s : State),
    s.AboutToExecute (layoutR 0b000000 rs rt rd ignored 0b101010) →
      step s = .next ((s.setPc (s.pc + 1)).setReg rd (if (s.reg rs).toInt < (s.reg rt).toInt then 1 else 0))) ∧
  signals .slt = ⟨.slt, false, false, .alu, false, .none, true, .rd⟩

/-- 42_arithmetic_logic.md R124. -/
def Obligations.SubiFollowsItsRule : Prop :=
  (∀ (rt rs : Reg) (k : Int) (s : State),
    exec (.subi rt rs k) s = .next (s.setReg rt (s.reg rs - BitVec.ofInt 32 k))) ∧
  (∀ (rt rs : Reg) (imm : BitVec 16) (s : State), s.AboutToExecute (layoutI 0b011000 rs rt imm) →
    step s = .next ((s.setPc (s.pc + 1)).setReg rt (s.reg rs - imm.signExtend 32))) ∧
  signals .subi = ⟨.sub, false, false, .alu, true, .none, true, .rt⟩

/-- 43_load_store.md R130: in range the cell is loaded, out of range the cause is raised and the register stands. -/
def Obligations.LwFollowsItsRule : Prop :=
  (∀ (rt rs : Reg) (k : Int) (s : State),
    let a := (s.reg rs + BitVec.ofInt 32 k).toInt
    (0 ≤ a → a < s.params.dmemWords → exec (.lw rt rs k) s = .next (s.setReg rt (s.cell a.toNat))) ∧
    (a < 0 ∨ s.params.dmemWords ≤ a →
      exec (.lw rt rs k) s = .next { s with fault := some (.dataAddressOutOfRange a) })) ∧
  (∀ (rt rs : Reg) (imm : BitVec 16) (s : State), s.AboutToExecute (layoutI 0b100011 rs rt imm) →
    let a := (s.reg rs + imm.signExtend 32).toInt
    (0 ≤ a → a < s.params.dmemWords → step s = .next ((s.setPc (s.pc + 1)).setReg rt (s.cell a.toNat))) ∧
    (a < 0 ∨ s.params.dmemWords ≤ a →
      step s = .next { s with pc := s.pc + 1, fault := some (.dataAddressOutOfRange a) })) ∧
  signals .lw = ⟨.add, true, false, .mem, true, .none, true, .rt⟩

/-- 43_load_store.md R131: in range the one cell takes x[rt], out of range the cause is raised and nothing is stored. -/
def Obligations.SwFollowsItsRule : Prop :=
  (∀ (rt rs : Reg) (k : Int) (s : State),
    let a := (s.reg rs + BitVec.ofInt 32 k).toInt
    (0 ≤ a → a < s.params.dmemWords →
      exec (.sw rt rs k) s = .next (s.setCell a.toNat (s.reg rt))) ∧
    (a < 0 ∨ s.params.dmemWords ≤ a →
      exec (.sw rt rs k) s = .next { s with fault := some (.dataAddressOutOfRange a) })) ∧
  (∀ (rt rs : Reg) (imm : BitVec 16) (s : State), s.AboutToExecute (layoutI 0b101011 rs rt imm) →
    let a := (s.reg rs + imm.signExtend 32).toInt
    (0 ≤ a → a < s.params.dmemWords →
      step s = .next ((s.setPc (s.pc + 1)).setCell a.toNat (s.reg rt))) ∧
    (a < 0 ∨ s.params.dmemWords ≤ a →
      step s = .next { s with pc := s.pc + 1, fault := some (.dataAddressOutOfRange a) })) ∧
  signals .sw = ⟨.add, false, true, .alu, true, .none, false, .none⟩

/-- 44_control_transfer.md R140: taken when the wrapped difference is not negative. -/
def Obligations.BgeFollowsItsRule : Prop :=
  (∀ (rs rt : Reg) (k : Int) (s : State),
    (0 ≤ (s.reg rs - s.reg rt).toInt → exec (.bge rs rt k) s = .next (s.setPc (s.pc + BitVec.ofInt 32 k))) ∧
    ((s.reg rs - s.reg rt).toInt < 0 → exec (.bge rs rt k) s = .next s)) ∧
  (∀ (rs rt : Reg) (imm : BitVec 16) (s : State), s.AboutToExecute (layoutI 0b011001 rs rt imm) →
    (0 ≤ (s.reg rs - s.reg rt).toInt → step s = .next (s.setPc (s.pc + 1 + imm.signExtend 32))) ∧
    ((s.reg rs - s.reg rt).toInt < 0 → step s = .next (s.setPc (s.pc + 1)))) ∧
  signals .bge = ⟨.sub, false, false, .alu, false, .conditional, false, .none⟩

/-- 44_control_transfer.md R141. -/
def Obligations.JumpFollowsItsRule : Prop :=
  (∀ (k : Int) (s : State), exec (.j k) s = .next (s.setPc (BitVec.ofInt 32 k))) ∧
  (∀ (ignored : BitVec 10) (imm : BitVec 16) (s : State), s.AboutToExecute (layoutJ 0b000010 ignored imm) →
    step s = .next (s.setPc (imm.signExtend 32))) ∧
  signals .j = ⟨.inv, false, false, .alu, false, .unconditional, false, .none⟩

/-- 44_control_transfer.md R142: the link is pc0 + 1, which `pc` holds after Fetch; LINK_REG is 31. -/
def Obligations.JalFollowsItsRule : Prop :=
  (∀ (k : Int) (s : State), exec (.jal k) s = .next ((s.setReg 31 s.pc).setPc (BitVec.ofInt 32 k))) ∧
  (∀ (ignored : BitVec 10) (imm : BitVec 16) (s : State), s.AboutToExecute (layoutJ 0b000011 ignored imm) →
    step s = .next ((s.setReg 31 (s.pc + 1)).setPc (imm.signExtend 32))) ∧
  signals .jal = ⟨.inv, false, false, .alu, false, .call, true, .link⟩

/-! ## Registers and memory -/

/-- 10_state.md R11: register 0 is zero after reset like every other, an instruction whose destination it is changes it,
later reads return the value written, and `sw` with rs = 0 uses what it holds. -/
def Obligations.RegisterZeroIsOrdinary : Prop :=
  (∀ r, State.reset.reg r = 0) ∧
  (∀ (s : State) (r q : Reg) (v : Word), (s.setReg r v).reg q = if q = r then v else s.reg q) ∧
  (∀ (rs rt : Reg) (s : State), ∃ t, exec (.add 0 rs rt) s = .next t ∧ t.reg 0 = s.reg rs + s.reg rt) ∧
  (∀ (rt : Reg) (k : Int) (s : State), Memory.wf s.dm = true →
    0 ≤ (s.reg 0 + BitVec.ofInt 32 k).toInt → (s.reg 0 + BitVec.ofInt 32 k).toInt < s.params.dmemWords →
      ∃ t, exec (.sw rt 0 k) s = .next t ∧ t.cell (s.reg 0 + BitVec.ofInt 32 k).toInt.toNat = s.reg rt)

/-- 20_memory.md R36: an access outside 0 ≤ a < DMEM_WORDS is not made and gives the cause; inside it reads the cell, or
replaces that cell and no other. -/
def Obligations.DataAccessIsBoundsChecked : Prop :=
  ∀ (s : State) (a : Int) (v : Word),
    (a < 0 ∨ s.params.dmemWords ≤ a →
      s.memRead a = .error (.dataAddressOutOfRange a) ∧ s.memWrite a v = .error (.dataAddressOutOfRange a)) ∧
    (0 ≤ a → a < s.params.dmemWords → s.memRead a = .ok (s.cell a.toNat) ∧
      ∃ t, s.memWrite a v = .ok t ∧
        (Memory.wf s.dm = true → ∀ b, t.cell b = if b = a.toNat then v else s.cell b))

/-- 20_memory.md R33, R40 (b): a load returns what the latest store put in its cell; a store to another cell is no matter
to it. -/
def Obligations.LoadSeesLatestStore : Prop :=
  ∀ (s t : State) (rt rs rt' rs' : Reg) (k k' : Int), Memory.wf s.dm = true → s.fault = none →
    exec (.sw rt rs k) s = .next t → t.fault = none →
    s.dataInRange (t.effectiveAddress rs' k') = true →
      ∃ u, exec (.lw rt' rs' k') t = .next u ∧ u.fault = none ∧
        (t.effectiveAddress rs' k' = s.effectiveAddress rs k → u.reg rt' = s.reg rt) ∧
        (t.effectiveAddress rs' k' ≠ s.effectiveAddress rs k →
          u.reg rt' = s.cell (t.effectiveAddress rs' k').toNat)

/-- Canonical Data Memories that read the same at every cell are equal data (the model's own form, log entry 1). -/
def Obligations.EqualCellsAreEqualMemories : Prop :=
  ∀ m m' : Memory, Memory.wf m = true → Memory.wf m' = true →
    (∀ a, Memory.read m a = Memory.read m' a) → m = m'

/-! ## Frames -/

/-- Frame of `add`, `or`, `xor`, `slt`, `subi`, `lw` (R90, R120 to R124, R130): nothing but the destination register
changes, or, for a `lw` out of range, nothing but the fault register. -/
def Obligations.RegisterWritersFrame : Prop :=
  ∀ (rd rs rt : Reg) (k : Int) (i : Instr) (s t : State),
    i = .add rd rs rt ∨ i = .or rd rs rt ∨ i = .xor rd rs rt ∨ i = .slt rd rs rt ∨ i = .subi rd rs k ∨
      i = .lw rd rs k →
    exec i s = .next t →
      (∀ r, r ≠ rd → t.reg r = s.reg r) ∧ (∀ a, t.cell a = s.cell a) ∧ (∀ a, t.wordAt a = s.wordAt a) ∧
      t.pc = s.pc ∧ t.n = s.n ∧ t.params = s.params ∧
      (t.fault = s.fault ∨
        (i = .lw rd rs k ∧ t.fault = some (.dataAddressOutOfRange (s.effectiveAddress rs k)) ∧ t.reg rd = s.reg rd))

/-- Frame of `sw` (R90, R131): no register, no pc, no instruction word changes; every cell but the one addressed reads as
before, and with an address out of range every cell does. -/
def Obligations.StoreFrame : Prop :=
  ∀ (rt rs : Reg) (k : Int) (s t : State), Memory.wf s.dm = true → exec (.sw rt rs k) s = .next t →
    (∀ r, t.reg r = s.reg r) ∧ (∀ a, t.wordAt a = s.wordAt a) ∧ t.pc = s.pc ∧ t.n = s.n ∧ t.params = s.params ∧
    (∀ b : Nat, (b : Int) ≠ s.effectiveAddress rs k → t.cell b = s.cell b) ∧
    (s.dataInRange (s.effectiveAddress rs k) = true →
      t.cell (s.effectiveAddress rs k).toNat = s.reg rt ∧ t.fault = s.fault) ∧
    (s.dataInRange (s.effectiveAddress rs k) = false →
      (∀ b, t.cell b = s.cell b) ∧ t.fault = some (.dataAddressOutOfRange (s.effectiveAddress rs k)))

/-- Frame of `bge`, `j`, `jal` (R90, R140 to R142): they change pc, and `jal` the link register x[31]; nothing else. -/
def Obligations.TransferFrame : Prop :=
  ∀ (i : Instr) (s t : State), isTransfer i = true → exec i s = .next t →
    (∀ r, (r ≠ 31 ∨ ∀ k, i ≠ .jal k) → t.reg r = s.reg r) ∧ (∀ a, t.cell a = s.cell a) ∧
    (∀ a, t.wordAt a = s.wordAt a) ∧ t.n = s.n ∧ t.params = s.params ∧ t.fault = s.fault

/-- 40_cycle_and_decode.md R90, over every step of a running machine on a valid word: registers but the destination,
cells but the one stored to, IM, N and the capacities are unchanged; `fault` is changed only by the raise of a `lw` or
`sw`, which writes nothing. -/
def Obligations.StepChangesOnlyWhatItsRuleNames : Prop :=
  ∀ (s t : State) (w : Word) (i : Instr), Memory.wf s.dm = true → s.AboutToExecute w → decodeWord w = .ok i →
    step s = .next t →
      (∀ r, destinationOf i ≠ some r → t.reg r = s.reg r) ∧
      (∀ b : Nat, storeAddressOf i s ≠ some (b : Int) → t.cell b = s.cell b) ∧
      t.im = s.im ∧ t.n = s.n ∧ t.params = s.params ∧
      (t.fault = none ∨
        ((∃ rt rs k, i = .lw rt rs k ∨ i = .sw rt rs k) ∧ ∃ a,
          t = { s with pc := s.pc + 1, fault := some (.dataAddressOutOfRange a) }))

/-- 20_memory.md R42, 10_state.md R17, R18: however long the machine runs, no fetch can see a change of the Instruction
Memory, and N stands. -/
def Obligations.RunNeverChangesInstructionMemory : Prop :=
  ∀ (k : Nat) (s t : State), Host.Core.run Sys2Proof.core k s = .next t →
    (∀ a, t.wordAt a = s.wordAt a) ∧ t.n = s.n ∧ t.params = s.params

/-! ## Whole-machine rules -/

/-- Every step keeps the invariant: capacities, N ≤ IMEM_WORDS, canonical memories inside their capacities, and pc between
-32768 and N + 32767 (10_state.md R16, R17; 20_memory.md R36). -/
def Obligations.StepKeepsInvariant : Prop :=
  ∀ s t : State, s.Inv → step s = .next t → t.Inv

/-- 60_exceptions.md R152 to R155: whatever the fault register holds is true of the state it stands in, after every
step. -/
def Obligations.FaultRegisterTellsTheTruth : Prop :=
  ∀ s t : State, s.Inv → step s = .next t → t.faultExplained

/-- A launch on legal capacities, run for any number of steps, stays inside the invariant, and its fault register tells
the truth (R175, R16, R152 to R155). -/
def Obligations.LaunchedRunsStayInInvariant : Prop :=
  ∀ (p : Config.Params) (prog : List Word) (x0 : Vector Word 32) (cells : List (Nat × Word)) (s t : State) (k : Nat),
    p.wf → launch p prog x0 cells = some s → Host.Core.run Sys2Proof.core k s = .next t → t.Inv ∧ t.faultExplained

/-- 10_state.md R16: how each instruction leaves pc, as mathematical integers: no addition of pc ever wraps in a state
that meets the invariant, and pc stays between -32768 and N + 32767. The range is the spec's own inference (R16: "so the
32-bit signed range is never left", derived from R15 and R54). -/
def Obligations.PcAfterEachInstruction : Prop :=
  ∀ (s t : State) (w : Word) (i : Instr), s.Inv → s.AboutToExecute w → decodeWord w = .ok i → step s = .next t →
    (isTransfer i = false → t.pc.toInt = s.pc.toInt + 1) ∧
    (∀ rs rt k, i = .bge rs rt k →
      (0 ≤ (s.reg rs - s.reg rt).toInt → t.pc.toInt = s.pc.toInt + 1 + k) ∧
      ((s.reg rs - s.reg rt).toInt < 0 → t.pc.toInt = s.pc.toInt + 1)) ∧
    (∀ k, i = .j k ∨ i = .jal k → t.pc.toInt = k) ∧
    -32768 ≤ t.pc.toInt ∧ t.pc.toInt ≤ s.n + 32767

/-- 44_control_transfer.md R144: no control transfer faults in its own step; what its target means is decided by the next
one. The rule is the spec's own inference (R144: "What the target means is decided at the start of the next step", derived
from R25 and R37). -/
def Obligations.TargetIsJudgedAtTheNextStep : Prop :=
  ∀ (s t : State) (w : Word) (i : Instr), s.AboutToExecute w → decodeWord w = .ok i → isTransfer i = true →
    step s = .next t →
      t.fault = none ∧
      (0 ≤ t.pc.toInt → t.pc.toInt < t.n → ∀ i', decodeWord (t.wordAt t.pc) = .ok i' →
        step t = exec i' (t.setPc (t.pc + 1))) ∧
      ((t.n : Int) ≤ t.pc.toInt → t.status = .halted) ∧
      (t.pc.toInt < 0 → step t = .next (t.raise (.fetchAddressOutOfRange t.pc.toInt)))

/-- 44_control_transfer.md R143: no instruction moves a register into pc. Two machines that differ only in registers,
cells and capacities come to the same pc, unless the word is a `bge`, which chooses between two targets fixed in the
word. -/
def Obligations.RegistersNeverReachThePc : Prop :=
  ∀ s s' t t' : State, s'.pc = s.pc → s'.im = s.im → s'.n = s.n → s'.fault = s.fault →
    step s = .next t → step s' = .next t' →
      t'.pc = t.pc ∨
        ∃ rs rt k, decodeWord (s.wordAt s.pc) = .ok (.bge rs rt k) ∧
          (t.pc = s.pc + 1 ∨ t.pc = s.pc + 1 + BitVec.ofInt 32 k) ∧
          (t'.pc = s.pc + 1 ∨ t'.pc = s.pc + 1 + BitVec.ofInt 32 k)

/-- 60_exceptions.md R165: a `j` to itself, and a taken `bge` with offset -1, run for ever: neither halt nor fault. -/
def Obligations.SelfBranchRunsForEver : Prop :=
  ∀ (s : State) (w : Word), s.AboutToExecute w →
    (decodeWord w = .ok (.j s.pc.toInt) → ∀ k, Host.Core.run Sys2Proof.core k s = .next s) ∧
    (∀ rs rt, decodeWord w = .ok (.bge rs rt (-1)) → 0 ≤ (s.reg rs - s.reg rt).toInt →
      ∀ k, Host.Core.run Sys2Proof.core k s = .next s)

/-- 30_encoding.md R62: the idioms that follow from the rules. -/
def Obligations.IdiomsOfTheInstructionSet : Prop :=
  ∀ (d r q : Reg) (k : Int) (s : State),
    exec (.or r r r) s = .next s ∧ exec (.subi r r 0) s = .next s ∧
    exec (.or d r r) s = .next (s.setReg d (s.reg r)) ∧
    exec (.subi d q (-k)) s = .next (s.setReg d (s.reg q + BitVec.ofInt 32 k)) ∧
    exec (.xor d r r) s = .next (s.setReg d 0) ∧
    exec (.bge r r k) s = .next (s.setPc (s.pc + BitVec.ofInt 32 k))

end
end

