-- ==== Sys2Proof/Laws/Decode.lean ====
section
/-! SUPPORT. The fields of a word the encoder builds, the 5-bit and 16-bit fields back and forth, and the operation ENC
gives each encoded word. -/
namespace Sys2Proof

/-- A 5-bit field made from a register index reads back as it. -/
theorem regOfBits_ofNat (r : Reg) : regOfBits (BitVec.ofNat 5 r.val) = r := by
  apply Fin.ext
  simp [regOfBits]

/-- A 16-bit field made from a K in range reads back as it. -/
theorem toInt_ofInt_of_immFits {k : Int} (h : immFits k = true) : (BitVec.ofInt 16 k).toInt = k := by
  simp only [immFits, decide_eq_true_eq] at h
  rw [BitVec.toInt_ofInt, Int.bmod_eq_of_le] <;> omega

/-- The immediate of every word is in K's range. -/
theorem immFits_fieldsOf (w : Word) : immFits (fieldsOf w).imm = true := by
  have h1 := BitVec.le_toInt (w.extractLsb' 0 16)
  have h2 := BitVec.toInt_lt (x := w.extractLsb' 0 16)
  exact decide_eq_true (by simp only [fieldsOf]; omega)

/-- The pieces of an R-format layout cut back out. -/
theorem placed_fields_R (op fn : BitVec 6) (a b c : BitVec 5) :
    let w := placed op 26 ||| placed a 21 ||| placed b 16 ||| placed c 11 ||| placed fn 0
    w.extractLsb' 26 6 = op ∧ w.extractLsb' 21 5 = a ∧ w.extractLsb' 16 5 = b ∧ w.extractLsb' 11 5 = c ∧
      w.extractLsb' 0 6 = fn := by
  refine ⟨?_, ?_, ?_, ?_, ?_⟩ <;> ext i hi <;> simp [placed] <;> grind

/-- The pieces of an I-format layout cut back out. -/
theorem placed_fields_I (op : BitVec 6) (a b : BitVec 5) (k : BitVec 16) :
    let w := placed op 26 ||| placed a 21 ||| placed b 16 ||| placed k 0
    w.extractLsb' 26 6 = op ∧ w.extractLsb' 21 5 = a ∧ w.extractLsb' 16 5 = b ∧ w.extractLsb' 0 16 = k := by
  refine ⟨?_, ?_, ?_, ?_⟩ <;> ext i hi <;> simp [placed] <;> grind

/-- The pieces of a J-format layout cut back out. -/
theorem placed_fields_J (op : BitVec 6) (k : BitVec 16) :
    let w := placed op 26 ||| placed k 0
    w.extractLsb' 26 6 = op ∧ w.extractLsb' 0 16 = k := by
  refine ⟨?_, ?_⟩ <;> ext i hi <;> simp [placed] <;> grind

/-- Recognition finds every operation at its own ENC row; outside R-format whatever `func` is (R56). -/
theorem recognise_enc (m : Op) {func : BitVec 6} (h : m.func = none ∨ m.func = some func) :
    recognise m.opcode func = .ok m := by
  cases m <;> simp only [Op.func, reduceCtorEq, false_or, Option.some.injEq, true_or] at h <;>
    first | (subst h; rfl) | rfl

/-- What the decoder reads from a word with a known operation. -/
theorem decodeWord_of_opOf {w : Word} {m : Op} (h : opOf w = .ok m) : decodeWord w = .ok ((fieldsOf w).instr m) := by
  simp only [decodeWord, h]

/-- Decode of an R-format encoding. -/
theorem decodeWord_encodeR (m : Op) {fn : BitVec 6} (hm : m.func = some fn) (rd rs rt : Reg) :
    ∃ f : Fields, f.rd = rd ∧ f.rs = rs ∧ f.rt = rt ∧ decodeWord (encodeR m rd rs rt) = .ok (f.instr m) := by
  obtain ⟨h1, h2, h3, h4, h5⟩ := placed_fields_R m.opcode (m.func.getD 0) (BitVec.ofNat 5 rs) (BitVec.ofNat 5 rt)
    (BitVec.ofNat 5 rd)
  refine ⟨fieldsOf (encodeR m rd rs rt), ?_, ?_, ?_, decodeWord_of_opOf ?_⟩
  · simp only [fieldsOf, encodeR, h4, regOfBits_ofNat]
  · simp only [fieldsOf, encodeR, h2, regOfBits_ofNat]
  · simp only [fieldsOf, encodeR, h3, regOfBits_ofNat]
  · simp only [opOf, fieldsOf, encodeR, h1, h5]
    exact recognise_enc m (.inr (by rw [hm]; rfl))

/-- Decode of an I-format encoding. -/
theorem decodeWord_encodeI (m : Op) (hm : m.func = none) (rt rs : Reg) {k : Int} (hk : immFits k = true) :
    ∃ f : Fields, f.rt = rt ∧ f.rs = rs ∧ f.imm = k ∧ decodeWord (encodeI m rt rs k) = .ok (f.instr m) := by
  obtain ⟨h1, h2, h3, h4⟩ := placed_fields_I m.opcode (BitVec.ofNat 5 rs) (BitVec.ofNat 5 rt) (BitVec.ofInt 16 k)
  refine ⟨fieldsOf (encodeI m rt rs k), ?_, ?_, ?_, decodeWord_of_opOf ?_⟩
  · simp only [fieldsOf, encodeI, h3, regOfBits_ofNat]
  · simp only [fieldsOf, encodeI, h2, regOfBits_ofNat]
  · simp only [fieldsOf, encodeI, h4, toInt_ofInt_of_immFits hk]
  · simp only [opOf, fieldsOf, encodeI, h1]
    exact recognise_enc m (.inl hm)

/-- Decode of a J-format encoding. -/
theorem decodeWord_encodeJ (m : Op) (hm : m.func = none) {k : Int} (hk : immFits k = true) :
    ∃ f : Fields, f.imm = k ∧ decodeWord (encodeJ m k) = .ok (f.instr m) := by
  obtain ⟨h1, h2⟩ := placed_fields_J m.opcode (BitVec.ofInt 16 k)
  refine ⟨fieldsOf (encodeJ m k), ?_, decodeWord_of_opOf ?_⟩
  · simp only [fieldsOf, encodeJ, h2, toInt_ofInt_of_immFits hk]
  · simp only [opOf, fieldsOf, encodeJ, h1]
    exact recognise_enc m (.inl hm)

end Sys2Proof
end

