-- ==== Sys2Proof/Laws/State.lean ====
section
/-! SUPPORT. One lemma per field per update of the state, so that no later proof unfolds a record update. -/
namespace Sys2Proof.Machine

variable (s : State) (r : Reg) (v t : Word) (c : Cause)

@[simp] theorem State.setReg_pc : (s.setReg r v).pc = s.pc := rfl
@[simp] theorem State.setReg_im : (s.setReg r v).im = s.im := rfl
@[simp] theorem State.setReg_n : (s.setReg r v).n = s.n := rfl
@[simp] theorem State.setReg_dm : (s.setReg r v).dm = s.dm := rfl
@[simp] theorem State.setReg_fault : (s.setReg r v).fault = s.fault := rfl
@[simp] theorem State.setReg_params : (s.setReg r v).params = s.params := rfl

@[simp] theorem State.setCell_x (a : Nat) : (s.setCell a v).x = s.x := rfl
@[simp] theorem State.setCell_pc (a : Nat) : (s.setCell a v).pc = s.pc := rfl
@[simp] theorem State.setCell_im (a : Nat) : (s.setCell a v).im = s.im := rfl
@[simp] theorem State.setCell_n (a : Nat) : (s.setCell a v).n = s.n := rfl
@[simp] theorem State.setCell_dm (a : Nat) : (s.setCell a v).dm = Memory.write s.dm a v := rfl
@[simp] theorem State.setCell_fault (a : Nat) : (s.setCell a v).fault = s.fault := rfl
@[simp] theorem State.setCell_params (a : Nat) : (s.setCell a v).params = s.params := rfl

@[simp] theorem State.setPc_x : (s.setPc t).x = s.x := rfl
@[simp] theorem State.setPc_pc : (s.setPc t).pc = t := rfl
@[simp] theorem State.setPc_im : (s.setPc t).im = s.im := rfl
@[simp] theorem State.setPc_n : (s.setPc t).n = s.n := rfl
@[simp] theorem State.setPc_dm : (s.setPc t).dm = s.dm := rfl
@[simp] theorem State.setPc_fault : (s.setPc t).fault = s.fault := rfl
@[simp] theorem State.setPc_params : (s.setPc t).params = s.params := rfl

@[simp] theorem State.raise_x : (s.raise c).x = s.x := rfl
@[simp] theorem State.raise_pc : (s.raise c).pc = s.pc := rfl
@[simp] theorem State.raise_im : (s.raise c).im = s.im := rfl
@[simp] theorem State.raise_n : (s.raise c).n = s.n := rfl
@[simp] theorem State.raise_dm : (s.raise c).dm = s.dm := rfl
@[simp] theorem State.raise_fault : (s.raise c).fault = some c := rfl
@[simp] theorem State.raise_params : (s.raise c).params = s.params := rfl

/-! What the accessors read after an update. -/

@[simp] theorem State.reg_setPc : (s.setPc t).reg r = s.reg r := rfl
@[simp] theorem State.reg_raise : (s.raise c).reg r = s.reg r := rfl
@[simp] theorem State.reg_setCell (a : Nat) : (s.setCell a v).reg r = s.reg r := rfl
@[simp] theorem State.wordAt_setCell (a : Nat) (i : Word) : (s.setCell a v).wordAt i = s.wordAt i := rfl
@[simp] theorem State.cell_setPc (a : Nat) : (s.setPc t).cell a = s.cell a := rfl
@[simp] theorem State.cell_setReg (a : Nat) : (s.setReg r v).cell a = s.cell a := rfl
@[simp] theorem State.cell_raise (a : Nat) : (s.raise c).cell a = s.cell a := rfl
@[simp] theorem State.wordAt_setPc (i : Word) : (s.setPc t).wordAt i = s.wordAt i := rfl
@[simp] theorem State.wordAt_setReg (i : Word) : (s.setReg r v).wordAt i = s.wordAt i := rfl
@[simp] theorem State.wordAt_raise (i : Word) : (s.raise c).wordAt i = s.wordAt i := rfl
@[simp] theorem State.dataInRange_setPc (a : Int) : (s.setPc t).dataInRange a = s.dataInRange a := rfl
@[simp] theorem State.dataInRange_setReg (a : Int) : (s.setReg r v).dataInRange a = s.dataInRange a := rfl

/-- A register read after a register write. -/
theorem State.reg_setReg (q : Reg) : (s.setReg r v).reg q = if q = r then v else s.reg q := by
  simp only [State.reg, State.setReg, Vector.get_eq_getElem, Vector.getElem_set, Fin.ext_iff, eq_comm]

@[simp] theorem State.reg_setReg_same : (s.setReg r v).reg r = v := by simp [State.reg_setReg]

theorem State.reg_setReg_other {q : Reg} (h : q ≠ r) : (s.setReg r v).reg q = s.reg q := by
  simp [State.reg_setReg, h]

@[simp] theorem State.dataInRange_raise (a : Int) : (s.raise c).dataInRange a = s.dataInRange a := rfl
@[simp] theorem State.dataInRange_setCell (a : Int) (b : Nat) : (s.setCell b v).dataInRange a = s.dataInRange a := rfl

theorem State.dataInRange_iff (a : Int) : s.dataInRange a = true ↔ 0 ≤ a ∧ a < s.params.dmemWords := by
  simp [State.dataInRange]

end Sys2Proof.Machine
end

