-- ==== Sys2Proof/Laws/Operands.lean ====
section
/-! SUPPORT. The immediate as a word, the sign test, and the fields an instruction names. -/
namespace Sys2Proof.Machine

/-- The signed reading of the immediate word is K (30_encoding.md R54). -/
theorem toInt_immWord {k : Int} (h : immFits k = true) : (immWord k).toInt = k := by
  simp only [immFits, decide_eq_true_eq] at h
  rw [immWord, BitVec.toInt_ofInt, Int.bmod_eq_of_le] <;> omega

/-- The immediate word of a 16-bit field is its sign extension (30_encoding.md R54). -/
theorem immWord_toInt (imm : BitVec 16) : immWord imm.toInt = imm.signExtend 32 := by
  apply BitVec.eq_of_toInt_eq
  rw [BitVec.toInt_signExtend_of_le (by decide), immWord, BitVec.toInt_ofInt]
  have h1 := BitVec.le_toInt imm
  have h2 := BitVec.toInt_lt (x := imm)
  rw [Int.bmod_eq_of_le] <;> omega

/-- Bit 31 is 0 exactly when the signed reading is not negative (44_control_transfer.md R140). -/
theorem resultNonNegative_iff (d : Word) : resultNonNegative (some d) = true ↔ 0 ≤ d.toInt := by
  have h := BitVec.msb_eq_toInt (x := d)
  rw [BitVec.msb_eq_getLsbD_last] at h
  simp only [resultNonNegative, show d.getLsbD 31 = decide (d.toInt < 0) from h]
  simp

variable (s : State) (rd rs rt : Reg) (k : Int)

@[simp] theorem State.effectiveAddress_setPc (t : Word) :
    (s.setPc t).effectiveAddress rs k = s.effectiveAddress rs k := rfl
@[simp] theorem State.effectiveAddress_raise (c : Cause) :
    (s.raise c).effectiveAddress rs k = s.effectiveAddress rs k := rfl
@[simp] theorem State.effectiveAddress_setCell (a : Nat) (v : Word) :
    (s.setCell a v).effectiveAddress rs k = s.effectiveAddress rs k := rfl
@[simp] theorem State.fetched_raise (c : Cause) : (s.raise c).fetched = s.fetched := rfl

@[simp] theorem State.fieldsR_rd : (s.fieldsR rd rs rt).rd = rd := rfl
@[simp] theorem State.fieldsR_rs : (s.fieldsR rd rs rt).rs = rs := rfl
@[simp] theorem State.fieldsR_rt : (s.fieldsR rd rs rt).rt = rt := rfl
@[simp] theorem State.fieldsI_rt : (s.fieldsI rt rs k).rt = rt := rfl
@[simp] theorem State.fieldsI_rs : (s.fieldsI rt rs k).rs = rs := rfl
@[simp] theorem State.fieldsI_imm : (s.fieldsI rt rs k).imm = k := rfl
@[simp] theorem State.fieldsJ_imm : (s.fieldsJ k).imm = k := rfl

end Sys2Proof.Machine
end

