-- ==== Sys2Proof/Laws/Memory.lean ====
section
/-! SUPPORT. The laws of the sparse memory: what a read gives after a write, and that every operation keeps the
canonical form and the bounds. -/
namespace Sys2Proof.Machine

/-! ## Rising addresses -/

theorem Memory.risingFrom_cons {lo b : Nat} {v : Word} {m : Memory} :
    Memory.risingFrom lo ((b, v) :: m) = true ↔ lo ≤ b ∧ Memory.risingFrom (b + 1) m = true := by
  simp [Memory.risingFrom]

theorem Memory.risingFrom_mono {lo lo' : Nat} {m : Memory} (h : Memory.risingFrom lo m = true) (hle : lo' ≤ lo) :
    Memory.risingFrom lo' m = true := by
  cases m with
  | nil => rfl
  | cons c m =>
    obtain ⟨b, v⟩ := c
    rw [Memory.risingFrom_cons] at h ⊢
    exact ⟨by omega, h.2⟩

/-- Below the first possible address nothing is listed. -/
theorem Memory.lookup_lt {lo a : Nat} {m : Memory} (h : Memory.risingFrom lo m = true) (ha : a < lo) :
    Memory.lookup m a = none := by
  induction m generalizing lo with
  | nil => rfl
  | cons c m ih =>
    obtain ⟨b, v⟩ := c
    rw [Memory.risingFrom_cons] at h
    have hne : a ≠ b := by omega
    simp only [Memory.lookup, if_neg hne]
    exact ih h.2 (by omega)

/-! ## Lookup after insert and erase -/

theorem Memory.lookup_insert (m : Memory) (a b : Nat) (v : Word) :
    Memory.lookup (Memory.insert m a v) b = if b = a then some v else Memory.lookup m b := by
  induction m with
  | nil => simp [Memory.insert, Memory.lookup]
  | cons c m ih =>
    obtain ⟨d, w⟩ := c
    unfold Memory.insert
    split
    · simp [Memory.lookup]
    · split
      · rename_i h; subst h
        by_cases hb : b = a <;> simp [Memory.lookup, hb]
      · by_cases hb : b = d
        · subst hb; simp [Memory.lookup, show b ≠ a by omega]
        · simp [Memory.lookup, hb, ih]

theorem Memory.lookup_erase {lo : Nat} {m : Memory} (h : Memory.risingFrom lo m = true) (a b : Nat) :
    Memory.lookup (Memory.erase m a) b = if b = a then none else Memory.lookup m b := by
  induction m generalizing lo with
  | nil => simp [Memory.erase, Memory.lookup]
  | cons c m ih =>
    obtain ⟨d, w⟩ := c
    rw [Memory.risingFrom_cons] at h
    unfold Memory.erase
    split
    · rename_i had; subst had
      by_cases hb : b = a
      · subst hb; simp [Memory.lookup_lt h.2 (Nat.lt_succ_self b)]
      · simp [Memory.lookup, hb]
    · by_cases hb : b = d
      · subst hb; simp [Memory.lookup, show b ≠ a by omega]
      · simp [Memory.lookup, hb, ih h.2]

/-! ## The canonical form is kept -/

theorem Memory.insert_rising {lo a : Nat} {m : Memory} {v : Word} (h : Memory.risingFrom lo m = true) (ha : lo ≤ a) :
    Memory.risingFrom lo (Memory.insert m a v) = true := by
  induction m generalizing lo with
  | nil => simp [Memory.insert, Memory.risingFrom, ha]
  | cons c m ih =>
    obtain ⟨d, w⟩ := c
    rw [Memory.risingFrom_cons] at h
    unfold Memory.insert
    split
    · simp only [Memory.risingFrom_cons]; exact ⟨ha, by omega, h.2⟩
    · split
      · rename_i had; subst had; rw [Memory.risingFrom_cons]; exact ⟨ha, h.2⟩
      · rw [Memory.risingFrom_cons]; exact ⟨h.1, ih h.2 (by omega)⟩

theorem Memory.erase_rising {lo a : Nat} {m : Memory} (h : Memory.risingFrom lo m = true) :
    Memory.risingFrom lo (Memory.erase m a) = true := by
  induction m generalizing lo with
  | nil => rfl
  | cons c m ih =>
    obtain ⟨d, w⟩ := c
    rw [Memory.risingFrom_cons] at h
    unfold Memory.erase
    split
    · exact Memory.risingFrom_mono h.2 (by omega)
    · rw [Memory.risingFrom_cons]; exact ⟨h.1, ih h.2⟩

/-- What is listed after an insert was listed before, or is what was inserted. -/
theorem Memory.mem_insert {m : Memory} {a : Nat} {v : Word} {c : Nat × Word} (h : c ∈ Memory.insert m a v) :
    c = (a, v) ∨ c ∈ m := by
  induction m with
  | nil => simpa [Memory.insert] using h
  | cons d m ih =>
    obtain ⟨b, w⟩ := d
    unfold Memory.insert at h
    split at h
    · simpa using h
    · split at h
      · rcases List.mem_cons.1 h with h | h
        · exact .inl h
        · exact .inr (List.mem_cons_of_mem _ h)
      · rcases List.mem_cons.1 h with h | h
        · exact .inr (h ▸ List.mem_cons_self ..)
        · exact (ih h).imp_right (List.mem_cons_of_mem _)

theorem Memory.mem_erase {m : Memory} {a : Nat} {c : Nat × Word} (h : c ∈ Memory.erase m a) : c ∈ m := by
  induction m with
  | nil => simp [Memory.erase] at h
  | cons d m ih =>
    obtain ⟨b, w⟩ := d
    unfold Memory.erase at h
    split at h
    · exact List.mem_cons_of_mem _ h
    · rcases List.mem_cons.1 h with h | h
      · exact h ▸ List.mem_cons_self ..
      · exact List.mem_cons_of_mem _ (ih h)

theorem Memory.wf_iff {m : Memory} : Memory.wf m = true ↔ Memory.risingFrom 0 m = true ∧ ∀ c ∈ m, c.2 ≠ 0 := by
  simp [Memory.wf]

theorem Memory.below_iff {cap : Nat} {m : Memory} : Memory.below cap m = true ↔ ∀ c ∈ m, c.1 < cap := by
  simp [Memory.below]

theorem Memory.write_wf {m : Memory} (h : Memory.wf m = true) (a : Nat) (v : Word) :
    Memory.wf (Memory.write m a v) = true := by
  rw [Memory.wf_iff] at h ⊢
  unfold Memory.write
  split
  · exact ⟨Memory.erase_rising h.1, fun c hc => h.2 c (Memory.mem_erase hc)⟩
  · rename_i hv
    refine ⟨Memory.insert_rising h.1 (Nat.zero_le a), fun c hc => ?_⟩
    rcases Memory.mem_insert hc with rfl | hc
    · exact hv
    · exact h.2 c hc

theorem Memory.write_below {cap : Nat} {m : Memory} (h : Memory.below cap m = true) {a : Nat} (ha : a < cap) (v : Word) :
    Memory.below cap (Memory.write m a v) = true := by
  rw [Memory.below_iff] at h ⊢
  intro c hc
  unfold Memory.write at hc
  split at hc
  · exact h c (Memory.mem_erase hc)
  · rcases Memory.mem_insert hc with rfl | hc
    · exact ha
    · exact h c hc

/-! ## Read after write -/

/-- A Data Memory read after a write: the value written at that cell, every other cell as before. -/
theorem Memory.read_write {m : Memory} (h : Memory.wf m = true) (a b : Nat) (v : Word) :
    Memory.read (Memory.write m a v) b = if b = a then v else Memory.read m b := by
  have hr := (Memory.wf_iff.1 h).1
  unfold Memory.write Memory.read
  split
  · rename_i hv
    rw [Memory.lookup_erase hr]
    split <;> simp [hv]
  · rw [Memory.lookup_insert]
    split <;> rfl

/-- An Instruction Memory read after the host has placed a word. -/
theorem Memory.readProgram_insert (m : Memory) (a b : Nat) (v : Word) :
    Memory.readProgram (Memory.insert m a v) b = if b = a then v else Memory.readProgram m b := by
  unfold Memory.readProgram
  rw [Memory.lookup_insert]
  split <;> rfl

/-- The reset memories are canonical. -/
theorem Memory.wf_reset : Memory.wf State.reset.dm = true := by decide

end Sys2Proof.Machine
end

