-- ==== Sys2Proof/Laws/Ops.lean ====
section
/-! SUPPORT. What the data accesses can answer (20_memory.md R36): one lemma per access that says everything. -/
namespace Sys2Proof.Machine

variable {s : State} {a : Int}

theorem State.memRead_inRange (h : s.dataInRange a = true) : s.memRead a = .ok (s.cell a.toNat) := by
  simp [State.memRead, h]

theorem State.memRead_outOfRange (h : s.dataInRange a = false) : s.memRead a = .error (.dataAddressOutOfRange a) := by
  simp [State.memRead, h]

theorem State.memWrite_inRange (h : s.dataInRange a = true) (v : Word) :
    s.memWrite a v = .ok (s.setCell a.toNat v) := by
  simp [State.memWrite, h]

theorem State.memWrite_outOfRange (h : s.dataInRange a = false) (v : Word) :
    s.memWrite a v = .error (.dataAddressOutOfRange a) := by
  simp [State.memWrite, h]

/-- What a write that succeeds leaves. -/
theorem State.memWrite_cases {t : State} {v : Word} (h : s.memWrite a v = .ok t) :
    s.dataInRange a = true ∧ t = s.setCell a.toNat v := by
  unfold State.memWrite at h
  split at h
  · exact ⟨‹_›, by injection h with h; exact h.symm⟩
  · cases h

/-- A cell after a store into a canonical memory. -/
theorem State.cell_setCell (hwf : Memory.wf s.dm = true) (a b : Nat) (v : Word) :
    (s.setCell a v).cell b = if b = a then v else s.cell b :=
  Memory.read_write hwf a b v

theorem State.cell_setCell_same (hwf : Memory.wf s.dm = true) (a : Nat) (v : Word) : (s.setCell a v).cell a = v := by
  rw [State.cell_setCell hwf, if_pos rfl]

theorem State.cell_setCell_other (hwf : Memory.wf s.dm = true) {a b : Nat} (h : b ≠ a) (v : Word) :
    (s.setCell a v).cell b = s.cell b := by
  rw [State.cell_setCell hwf, if_neg h]

end Sys2Proof.Machine
end

