-- ==== Sys2Proof/Laws/Datapath.lean ====
section
/-! SUPPORT. What the datapath does for each row of the control table, in one equation a row and case: the provers cite these and
never unfold the stages. -/
namespace Sys2Proof.Machine

variable (f : Fields) (s : State)

theorem datapath_add : datapath .add f s = s.setReg f.rd (s.reg f.rs + s.reg f.rt) := rfl

theorem datapath_or : datapath .or f s = s.setReg f.rd (s.reg f.rs ||| s.reg f.rt) := rfl

theorem datapath_xor : datapath .xor f s = s.setReg f.rd (s.reg f.rs ^^^ s.reg f.rt) := rfl

theorem datapath_slt :
    datapath .slt f s = s.setReg f.rd (if (s.reg f.rs).toInt < (s.reg f.rt).toInt then 1 else 0) := rfl

theorem datapath_subi : datapath .subi f s = s.setReg f.rt (s.reg f.rs - immWord f.imm) := rfl

variable {f s} in
theorem datapath_lw_inRange (h : s.dataInRange (s.effectiveAddress f.rs f.imm) = true) :
    datapath .lw f s = s.setReg f.rt (s.cell (s.effectiveAddress f.rs f.imm).toNat) := by
  show (match (s.memRead (s.effectiveAddress f.rs f.imm)).map some with
    | .error c => s.raise c
    | .ok m => writeback (decodeStage .lw f s) m s) = _
  rw [State.memRead_inRange h]; rfl

variable {f s} in
theorem datapath_lw_outOfRange (h : s.dataInRange (s.effectiveAddress f.rs f.imm) = false) :
    datapath .lw f s = s.raise (.dataAddressOutOfRange (s.effectiveAddress f.rs f.imm)) := by
  show (match (s.memRead (s.effectiveAddress f.rs f.imm)).map some with
    | .error c => s.raise c
    | .ok m => writeback (decodeStage .lw f s) m s) = _
  rw [State.memRead_outOfRange h]; rfl

variable {f s} in
theorem datapath_sw_inRange (h : s.dataInRange (s.effectiveAddress f.rs f.imm) = true) :
    datapath .sw f s = s.setCell (s.effectiveAddress f.rs f.imm).toNat (s.reg f.rt) := by
  show (match s.memWrite (s.effectiveAddress f.rs f.imm) (s.reg f.rt) with
    | .error c => s.raise c
    | .ok s2 => s2) = _
  rw [State.memWrite_inRange h]

variable {f s} in
theorem datapath_sw_outOfRange (h : s.dataInRange (s.effectiveAddress f.rs f.imm) = false) :
    datapath .sw f s = s.raise (.dataAddressOutOfRange (s.effectiveAddress f.rs f.imm)) := by
  show (match s.memWrite (s.effectiveAddress f.rs f.imm) (s.reg f.rt) with
    | .error c => s.raise c
    | .ok s2 => s2) = _
  rw [State.memWrite_outOfRange h]

variable {f s} in
theorem datapath_bge_taken (h : 0 ≤ (s.reg f.rs - s.reg f.rt).toInt) :
    datapath .bge f s = s.setPc (s.pc + immWord f.imm) := by
  show (if resultNonNegative (some (s.reg f.rs - s.reg f.rt)) then s.setPc (s.pc + immWord f.imm) else s) = _
  rw [if_pos ((resultNonNegative_iff _).2 h)]

variable {f s} in
theorem datapath_bge_notTaken (h : (s.reg f.rs - s.reg f.rt).toInt < 0) : datapath .bge f s = s := by
  show (if resultNonNegative (some (s.reg f.rs - s.reg f.rt)) then s.setPc (s.pc + immWord f.imm) else s) = _
  rw [if_neg fun hn => absurd ((resultNonNegative_iff _).1 hn) (Int.not_le.2 h)]

theorem datapath_j : datapath .j f s = s.setPc (immWord f.imm) := rfl

theorem datapath_jal : datapath .jal f s = (s.setReg linkReg s.pc).setPc (immWord f.imm) := rfl

end Sys2Proof.Machine
end

