-- ==== Sys2Proof/Laws/PerInstr.lean ====
section
/-! SUPPORT. Per-instruction laws, one lemma per constructor of Instr. Family RoundTrip: the decoder reads back what the
encoder wrote. -/
namespace Sys2Proof.Laws.RoundTrip

/-- Decoding the encoding of a well-formed instruction gives it back (30_encoding.md R56, R64). -/
def Statement (i : Instr) : Prop := i.wf = true → decodeWord (encode i) = .ok i

theorem add (rd rs rt : Reg) : Statement (.add rd rs rt) := fun _ => by
  obtain ⟨f, rfl, rfl, rfl, h⟩ := decodeWord_encodeR .add rfl rd rs rt
  exact h

theorem or (rd rs rt : Reg) : Statement (.or rd rs rt) := fun _ => by
  obtain ⟨f, rfl, rfl, rfl, h⟩ := decodeWord_encodeR .or rfl rd rs rt
  exact h

theorem xor (rd rs rt : Reg) : Statement (.xor rd rs rt) := fun _ => by
  obtain ⟨f, rfl, rfl, rfl, h⟩ := decodeWord_encodeR .xor rfl rd rs rt
  exact h

theorem slt (rd rs rt : Reg) : Statement (.slt rd rs rt) := fun _ => by
  obtain ⟨f, rfl, rfl, rfl, h⟩ := decodeWord_encodeR .slt rfl rd rs rt
  exact h

theorem subi (rt rs : Reg) (k : Int) : Statement (.subi rt rs k) := fun hk => by
  obtain ⟨f, rfl, rfl, rfl, h⟩ := decodeWord_encodeI .subi rfl rt rs hk
  exact h

theorem lw (rt rs : Reg) (k : Int) : Statement (.lw rt rs k) := fun hk => by
  obtain ⟨f, rfl, rfl, rfl, h⟩ := decodeWord_encodeI .lw rfl rt rs hk
  exact h

theorem sw (rt rs : Reg) (k : Int) : Statement (.sw rt rs k) := fun hk => by
  obtain ⟨f, rfl, rfl, rfl, h⟩ := decodeWord_encodeI .sw rfl rt rs hk
  exact h

theorem bge (rs rt : Reg) (k : Int) : Statement (.bge rs rt k) := fun hk => by
  obtain ⟨f, rfl, rfl, rfl, h⟩ := decodeWord_encodeI .bge rfl rt rs hk
  exact h

theorem j (k : Int) : Statement (.j k) := fun hk => by
  obtain ⟨f, rfl, h⟩ := decodeWord_encodeJ .j rfl hk
  exact h

theorem jal (k : Int) : Statement (.jal k) := fun hk => by
  obtain ⟨f, rfl, h⟩ := decodeWord_encodeJ .jal rfl hk
  exact h

end Sys2Proof.Laws.RoundTrip
end

