-- ==== Sys2Proof/Laws/Step.lean ====
section
/-! SUPPORT. What a step can do: one equation per status and one case list for the running machine. -/
namespace Sys2Proof.Machine

variable {s : State}

theorem State.status_running_iff : s.status = .running ↔ s.fault = none ∧ s.pc.toInt < s.n := by
  unfold State.status State.pastEnd
  cases s.fault with
  | some c => simp
  | none => simp

theorem State.status_halted_iff : s.status = .halted ↔ s.fault = none ∧ (s.n : Int) ≤ s.pc.toInt := by
  unfold State.status State.pastEnd
  cases s.fault with
  | some c => simp
  | none => simp

theorem State.status_faulted_iff : s.status = .faulted ↔ s.fault ≠ none := by
  unfold State.status State.pastEnd
  cases s.fault with
  | some c => simp
  | none => simp; split <;> simp

theorem step_faulted {c : Cause} (h : s.fault = some c) : step s = .fault (.stopped c) := by
  simp [step, h, faultedStep]

theorem step_halted (h : s.status = .halted) : step s = .next s := by
  obtain ⟨hf, hp⟩ := State.status_halted_iff.1 h
  simp [step, hf, State.pastEnd, hp, haltedStep]

/-- A running machine's step, stage by stage. -/
theorem step_running (h : s.status = .running) :
    step s =
      match s.fetch with
      | .error c => .next (s.raise c)
      | .ok f =>
        match decodeWord f.word with
        | .error _ => .next f.raiseInvalid
        | .ok i => exec i f.after := by
  obtain ⟨hf, hp⟩ := State.status_running_iff.1 h
  unfold step
  split
  · rename_i hc; rw [hf] at hc; cases hc
  · exact if_neg (by simp [State.pastEnd, hp])

/-- Fetch of a negative program counter, and of any other. -/
theorem State.fetch_negative (h : s.pc.toInt < 0) : s.fetch = .error (.fetchAddressOutOfRange s.pc.toInt) := by
  simp [State.fetch, h]

theorem State.fetch_nonneg (h : 0 ≤ s.pc.toInt) :
    s.fetch = .ok { pc0 := s.pc, word := s.wordAt s.pc, after := s.setPc (s.pc + 1) } := by
  simp [State.fetch, Int.not_lt.2 h]

/-- The state after Fetch still knows where the word in execution came from. -/
theorem State.pc0_after (t : State) : (t.setPc (t.pc + 1)).pc0 = t.pc := by
  simp [State.pc0]

theorem State.fetched_after (t : State) : (t.setPc (t.pc + 1)).fetched = t.wordAt t.pc := by
  simp only [State.fetched, State.pc0_after, State.wordAt_setPc]

/-- Everything an instruction can do, when it answers a next state: write one register, write one cell, raise a data
address fault, or set pc (with the link for `jal`). -/
theorem exec_inversion {i : Instr} {t u : State} (h : exec i t = .next u) :
    (∃ r v, destinationOf i = some r ∧ isTransfer i = false ∧ u = t.setReg r v) ∨
    (∃ rt rs k, i = .sw rt rs k ∧ t.dataInRange (t.effectiveAddress rs k) = true ∧
      u = t.setCell (t.effectiveAddress rs k).toNat (t.reg rt)) ∨
    (∃ rt rs k, (i = .lw rt rs k ∨ i = .sw rt rs k) ∧ t.dataInRange (t.effectiveAddress rs k) = false ∧
      u = t.raise (.dataAddressOutOfRange (t.effectiveAddress rs k))) ∨
    (∃ rs rt k, i = .bge rs rt k ∧
      (0 ≤ (t.reg rs - t.reg rt).toInt ∧ u = t.setPc (t.pc + immWord k) ∨ (t.reg rs - t.reg rt).toInt < 0 ∧ u = t)) ∨
    (∃ k, i = .j k ∧ u = t.setPc (immWord k)) ∨
    (∃ k, i = .jal k ∧ u = (t.setReg linkReg t.pc).setPc (immWord k)) := by
  cases i with
  | add rd rs rt => injection h with h; exact .inl ⟨rd, _, rfl, rfl, h.symm⟩
  | or rd rs rt => injection h with h; exact .inl ⟨rd, _, rfl, rfl, h.symm⟩
  | xor rd rs rt => injection h with h; exact .inl ⟨rd, _, rfl, rfl, h.symm⟩
  | slt rd rs rt => injection h with h; exact .inl ⟨rd, _, rfl, rfl, h.symm⟩
  | subi rt rs k => injection h with h; exact .inl ⟨rt, _, rfl, rfl, h.symm⟩
  | lw rt rs k =>
    have h : datapath .lw (t.fieldsI rt rs k) t = u := by injection h
    cases hr : t.dataInRange (t.effectiveAddress rs k) with
    | true =>
      rw [datapath_lw_inRange (f := t.fieldsI rt rs k) hr] at h
      exact .inl ⟨rt, _, rfl, rfl, h.symm⟩
    | false =>
      rw [datapath_lw_outOfRange (f := t.fieldsI rt rs k) hr] at h
      exact .inr (.inr (.inl ⟨rt, rs, k, .inl rfl, hr, h.symm⟩))
  | sw rt rs k =>
    have h : datapath .sw (t.fieldsI rt rs k) t = u := by injection h
    cases hr : t.dataInRange (t.effectiveAddress rs k) with
    | true =>
      rw [datapath_sw_inRange (f := t.fieldsI rt rs k) hr] at h
      exact .inr (.inl ⟨rt, rs, k, rfl, hr, h.symm⟩)
    | false =>
      rw [datapath_sw_outOfRange (f := t.fieldsI rt rs k) hr] at h
      exact .inr (.inr (.inl ⟨rt, rs, k, .inr rfl, hr, h.symm⟩))
  | bge rs rt k =>
    have h : datapath .bge (t.fieldsI rt rs k) t = u := by injection h
    refine .inr (.inr (.inr (.inl ⟨rs, rt, k, rfl, ?_⟩)))
    by_cases hc : 0 ≤ (t.reg rs - t.reg rt).toInt
    · exact .inl ⟨hc, by rw [← h, datapath_bge_taken (f := t.fieldsI rt rs k) hc]⟩
    · exact .inr ⟨Int.not_le.1 hc, by rw [← h, datapath_bge_notTaken (f := t.fieldsI rt rs k) (Int.not_le.1 hc)]⟩
  | j k => injection h with h; exact .inr (.inr (.inr (.inr (.inl ⟨k, rfl, h.symm⟩))))
  | jal k => injection h with h; exact .inr (.inr (.inr (.inr (.inr ⟨k, rfl, h.symm⟩))))

/-- Everything a step can do, when it answers a next state. -/
theorem step_inversion {t : State} (h : step s = .next t) :
    s.fault = none ∧
    ((s.status = .halted ∧ t = s) ∨
    (s.status = .running ∧ s.pc.toInt < 0 ∧ t = s.raise (.fetchAddressOutOfRange s.pc.toInt)) ∨
    (s.status = .running ∧ 0 ≤ s.pc.toInt ∧ (∃ e, decodeWord (s.wordAt s.pc) = .error e) ∧
      t = (s.setPc (s.pc + 1)).raise (.invalidInstruction s.pc.toInt (s.wordAt s.pc))) ∨
    (s.status = .running ∧ 0 ≤ s.pc.toInt ∧ ∃ i, decodeWord (s.wordAt s.pc) = .ok i ∧
      exec i (s.setPc (s.pc + 1)) = .next t)) := by
  cases hs : s.status with
  | faulted =>
    obtain ⟨c, hc⟩ := Option.ne_none_iff_exists'.1 (State.status_faulted_iff.1 hs)
    rw [step_faulted hc] at h
    cases h
  | halted =>
    rw [step_halted hs] at h
    injection h with h
    exact ⟨(State.status_halted_iff.1 hs).1, .inl ⟨rfl, h.symm⟩⟩
  | running =>
    refine ⟨(State.status_running_iff.1 hs).1, .inr ?_⟩
    rw [step_running hs] at h
    by_cases hp : s.pc.toInt < 0
    · rw [State.fetch_negative hp] at h
      injection h with h
      exact .inl ⟨rfl, hp, h.symm⟩
    · have hp := Int.not_lt.1 hp
      rw [State.fetch_nonneg hp] at h
      cases hd : decodeWord (s.wordAt s.pc) with
      | error e =>
        simp only [hd] at h
        injection h with h
        exact .inr (.inl ⟨rfl, hp, ⟨e, rfl⟩, h.symm⟩)
      | ok i =>
        simp only [hd] at h
        exact .inr (.inr ⟨rfl, hp, i, rfl, h⟩)

end Sys2Proof.Machine
end

