-- ==== Sys2Proof/Tests/Slice0.lean ====
section
/-! SUPPORT. Tests of the model. Every expected value is from spec/: the vectors of 95_test_vectors.md (named V-…, P… in the
comments) or the encodings of 30_encoding.md. The last part shows, for every obligation with hypotheses, states and
operands that meet them. -/
namespace Sys2Proof.Tests
open Sys2Proof Sys2Proof.Machine

/-! ## Small states -/

/-- A Register File with the values listed and 0 elsewhere. -/
def regs (xs : List (Reg × Word)) : Vector Word 32 :=
  xs.foldl (fun x c => x.set c.1.val c.2 c.1.isLt) (Vector.replicate 32 0)

/-- A running machine at index `p` with the word `w` there, N = 16, IMEM_WORDS = 16 and DMEM_WORDS = 64. -/
def fetching (p w : Word) (xs : List (Reg × Word)) (dm : Memory) : State :=
  { x := regs xs, pc := p, im := [(p.toNat, w)], n := 16, dm := dm, fault := none, params := ⟨16, 64⟩ }

/-- The step gives a next state of which `p` holds. -/
def stepsTo (s : State) (p : State → Bool) : Bool :=
  match step s with
  | .next t => p t
  | .fault _ => false
  | .refused _ => false

/-! ## Decode of words written out from R51, R53, R57 (V-dec) -/

theorem test_decode_add : decodeWord (0b000000_00001_00010_00011_00000_100000 : Word) = .ok (.add 3 1 2) := by decide
theorem test_decode_or : decodeWord (0b000000_00001_00010_00011_00000_100101 : Word) = .ok (.or 3 1 2) := by decide
theorem test_decode_xor : decodeWord (0b000000_00001_00010_00011_00000_100110 : Word) = .ok (.xor 3 1 2) := by decide
theorem test_decode_slt : decodeWord (0b000000_00001_00010_00011_00000_101010 : Word) = .ok (.slt 3 1 2) := by decide
theorem test_decode_subi : decodeWord (0b011000_00001_00010_0000000000000011 : Word) = .ok (.subi 2 1 3) := by decide
theorem test_decode_lw : decodeWord (0b100011_00001_00010_1111111111111110 : Word) = .ok (.lw 2 1 (-2)) := by decide
theorem test_decode_sw : decodeWord (0b101011_00000_00010_1000000000000000 : Word) = .ok (.sw 2 0 (-32768)) := by decide
theorem test_decode_bge : decodeWord (0b011001_00001_00010_0000000000000101 : Word) = .ok (.bge 1 2 5) := by decide
theorem test_decode_j : decodeWord (0b000010_1111111111_0000000000000101 : Word) = .ok (.j 5) := by decide
theorem test_decode_jal : decodeWord (0b000011_0101010101_1111111111111110 : Word) = .ok (.jal (-2)) := by decide

/-- V-dec-11, V-dec-12, V-dec-13: registers 29 to 31 and all ignored bits 1. -/
theorem test_decode_high_registers :
    decodeWord 0x03DDFFE0#32 = .ok (.add 31 30 29) ∧ decodeWord 0x63FFFFFF#32 = .ok (.subi 31 31 (-1)) ∧
      decodeWord 0x0BFFFFFF#32 = .ok (.j (-1)) := by decide

/-- V-inv-1 to V-inv-10: no word of another MIPS instruction is valid. -/
theorem test_decode_refuses :
    ([0x00000000, 0xFFFFFFFF, 0x00221824, 0x00221827, 0x00221822, 0x03E00008, 0x20220003, 0x10220005, 0x04000000,
      0x68000000] : List Word).all (fun w => (decodeWord w).toOption == none) = true := by decide

/-- V-inv-11: func is not looked at outside opcode 0. -/
theorem test_decode_func_ignored : decodeWord 0x60220020#32 = .ok (.subi 2 1 32) := by decide

/-- The words of 95_test_vectors.md from their instructions (R64; ignored bits zero). -/
theorem test_encode :
    encode (.add 3 1 2) = 0x00221820#32 ∧ encode (.or 5 5 5) = 0x00A52825#32 ∧ encode (.xor 4 4 4) = 0x00842026#32 ∧
    encode (.slt 3 1 1) = 0x0021182A#32 ∧ encode (.subi 2 1 (-32768)) = 0x60228000#32 ∧
    encode (.lw 2 0 (-1)) = 0x8C02FFFF#32 ∧ encode (.sw 2 1 4) = 0xAC220004#32 ∧
    encode (.bge 1 2 (-3)) = 0x6422FFFD#32 ∧ encode (.j (-1)) = 0x0800FFFF#32 ∧ encode (.jal 20) = 0x0C000014#32 := by
  decide

/-- 30_encoding.md R63 with the lines of program P1 of 95_test_vectors.md. -/
theorem test_pattern_of_line :
    patternOfLine (-1409155072) = some 0xAC020000#32 ∧ patternOfLine 4263968 = some 0x00411020#32 ∧
      patternOfLine 4294967296 = none ∧ patternOfLine (-2147483649) = none := by decide

/-! ## WellFormed: the check on K, and the checks on the capacities, refuse what is ill formed -/

theorem test_wf_subi : (Instr.subi 1 2 32768).wf = false ∧ (Instr.subi 1 2 (-32769)).wf = false := by decide
theorem test_wf_lw : (Instr.lw 1 2 32768).wf = false ∧ (Instr.lw 1 2 (-32769)).wf = false := by decide
theorem test_wf_sw : (Instr.sw 1 2 32768).wf = false ∧ (Instr.sw 1 2 (-32769)).wf = false := by decide
theorem test_wf_bge : (Instr.bge 1 2 32768).wf = false ∧ (Instr.bge 1 2 (-32769)).wf = false := by decide
theorem test_wf_j : (Instr.j 32768).wf = false ∧ (Instr.j (-32769)).wf = false := by decide
theorem test_wf_jal : (Instr.jal 32768).wf = false ∧ (Instr.jal (-32769)).wf = false := by decide
theorem test_wf_accepts_ends : (Instr.subi 1 2 32767).wf = true ∧ (Instr.jal (-32768)).wf = true := by decide

theorem test_wf_params :
    ¬ Config.Params.wf ⟨0, 1⟩ ∧ ¬ Config.Params.wf ⟨1, 0⟩ ∧ ¬ Config.Params.wf ⟨2 ^ 30 + 1, 1⟩ ∧
      ¬ Config.Params.wf ⟨1, 2 ^ 31 + 1⟩ ∧ Config.Params.wf ⟨2 ^ 30, 2 ^ 31⟩ := by decide

/-- A listed zero, an address out of order, an address twice: none is canonical (R19, log entry 1). -/
theorem test_wf_memory :
    Memory.wf [(3, 0)] = false ∧ Memory.wf [(3, 1), (2, 1)] = false ∧ Memory.wf [(3, 1), (3, 2)] = false ∧
      Memory.wf [(2, 1), (3, 1)] = true := by decide

/-! ## One step (95_test_vectors.md, part 2) -/

/-- V-arith-2 -/
theorem test_add_wraps :
    stepsTo (fetching 0 0x00221820 [(1, 0x7FFFFFFF), (2, 1)] []) (fun t => t.reg 3 == 0x80000000 && t.pc == 1) = true := by
  decide
/-- V-r0-1 -/
theorem test_add_register_zero :
    stepsTo (fetching 0 0x00220020 [(1, 4), (2, 5)] []) (fun t => t.reg 0 == 9) = true := by decide
/-- V-arith-6 -/
theorem test_or :
    stepsTo (fetching 0 0x00221825 [(1, 0xFF00FF00), (2, 0x0F0F0F0F)] []) (fun t => t.reg 3 == 0xFF0FFF0F) = true := by
  decide
/-- V-arith-8 -/
theorem test_xor :
    stepsTo (fetching 0 0x00221826 [(1, 0xFF00FF00), (2, 0x0F0F0F0F)] []) (fun t => t.reg 3 == 0xF00FF00F) = true := by
  decide
/-- V-arith-12 -/
theorem test_slt_exact :
    stepsTo (fetching 0 0x0022182A [(1, 0x80000000), (2, 0x7FFFFFFF)] []) (fun t => t.reg 3 == 1) = true := by decide
/-- V-arith-11 -/
theorem test_slt_clears :
    stepsTo (fetching 0 0x0022182A [(2, 0xFFFFFFFF), (3, 7)] []) (fun t => t.reg 3 == 0) = true := by decide
/-- V-arith-15 -/
theorem test_subi_negative :
    stepsTo (fetching 0 0x6022FFFF [(1, 0x0A)] []) (fun t => t.reg 2 == 0x0B && t.reg 1 == 0x0A) = true := by decide
/-- V-arith-21 -/
theorem test_subi_long_immediate :
    stepsTo (fetching 0 0x60221803 [(1, 0x2710)] []) (fun t => t.reg 2 == 0x0F0D && t.reg 3 == 0) = true := by decide
/-- V-mem-5 -/
theorem test_lw_wraps :
    stepsTo (fetching 0 0x8C220001 [(1, 0xFFFFFFFF)] [(0, 0x99)]) (fun t => t.reg 2 == 0x99 && t.fault == none) = true := by
  decide
/-- V-mem-6 -/
theorem test_lw_out_of_range :
    stepsTo (fetching 0 0x8C220000 [(1, 0x40), (2, 5)] [])
      (fun t => t.reg 2 == 5 && t.pc == 1 && t.fault == some (.dataAddressOutOfRange 64)) = true := by decide
/-- V-mem-10 -/
theorem test_sw_last_cell :
    stepsTo (fetching 0 0xAC220003 [(1, 0x3C), (2, 0xFFFFFFFF)] []) (fun t => t.cell 63 == 0xFFFFFFFF && t.fault == none)
      = true := by decide
/-- V-mem-13 -/
theorem test_sw_zero :
    stepsTo (fetching 0 0xAC220005 [(1, 3)] [(8, 0x55)]) (fun t => t.cell 8 == 0 && t.dm == []) = true := by decide
/-- V-bge-6 -/
theorem test_bge_overflow_not_taken :
    stepsTo (fetching 0 0x64220005 [(1, 0x7FFFFFFF), (2, 0xFFFFFFFF)] []) (fun t => t.pc == 1) = true := by decide
/-- V-bge-8 -/
theorem test_bge_backward : stepsTo (fetching 4 0x6422FFFD [(1, 1)] []) (fun t => t.pc == 2) = true := by decide
/-- V-jump-2 -/
theorem test_j : stepsTo (fetching 9 0x08000005 [(31, 3)] []) (fun t => t.pc == 5 && t.reg 31 == 3) = true := by decide
/-- V-jump-6 -/
theorem test_j_negative :
    stepsTo (fetching 0 0x0800FFFF [] []) (fun t => t.pc.toInt == -1 && t.fault == none) = true := by decide
/-- V-jump-11 -/
theorem test_jal : stepsTo (fetching 7 0x0D550005 [] []) (fun t => t.pc == 5 && t.reg 31 == 8) = true := by decide
/-- V-jump-12 -/
theorem test_jal_negative :
    stepsTo (fetching 4 0x0C00FFFE [] []) (fun t => t.pc.toInt == -2 && t.reg 31 == 5) = true := by decide
/-- V-inv-6 -/
theorem test_invalid_word :
    stepsTo (fetching 5 0x03E00008 [] []) (fun t => t.pc == 6 && t.fault == some (.invalidInstruction 5 0x03E00008))
      = true := by decide
/-- V-run-5 -/
theorem test_negative_fetch :
    stepsTo (fetching (-1) 0 [] []) (fun t => t.pc.toInt == -1 && t.fault == some (.fetchAddressOutOfRange (-1)))
      = true := by decide

/-- The numbers of the four causes (R151, decision D7), and what the host reads after V-mem-11 (R177). -/
theorem test_cause_codes :
    [Cause.invalidInstruction 0 0, .noDestination 0 0, .dataAddressOutOfRange 0, .fetchAddressOutOfRange 0].map Cause.code
        = [1, 2, 3, 4] ∧
      stepsTo (fetching 0 0xAC220004 [(1, 0x3C), (2, 0xFFFFFFFF)] [])
        (fun t => t.readOut.fault == some (.dataAddressOutOfRange 64) && t.readOut.dm == [] && t.readOut.pc == 1) = true := by
  decide

/-- V-alu-1, and NOT bit by bit (R107): the two operations no instruction selects. -/
theorem test_alu_and_not :
    alu .and 0xFF00FF00 0x0F0F0F0F = some 0x0F000F00 ∧ alu .not 0xFF00FF00 0 = some 0x00FF00FF := by decide

/-- The host's two questions on one row (`slt`): the decoder gives it, and the next step runs it from reset (V-arith-11
on zero registers). -/
theorem test_table_word :
    decodeTableWord 32 0x0022182A = some (.slt 3 1 2) ∧ decodeTableWord 32 0 = none ∧
      stepsTo (State.reset.withFetchWord 32 0x6022FFFF) (fun t => t.reg 2 == 1 && t.pc == 1 && t.fault == none) = true := by
  decide

/-! ## Witnesses: for every obligation with hypotheses, states and operands that meet them, clause by clause, at the ends
of their ranges -/

/-- `t` is the state one step on. -/
def stepOf (s : State) : State :=
  match step s with
  | .next t => t
  | .fault _ => s
  | .refused _ => s

theorem step_stepOf (s : State) (h : stepsTo s (fun _ => true) = true) : step s = .next (stepOf s) := by
  unfold stepsTo at h
  unfold stepOf
  split at h <;> simp_all

theorem about {s : State} {w : Word} (h : s.status = .running ∧ 0 ≤ s.pc.toInt ∧ s.wordAt s.pc = w) :
    s.AboutToExecute w := ⟨h.1, h.2.1, h.2.2⟩

/-- The state after the program of P6 has met the invalid word: a faulted machine. -/
def faultedState : State := { fetching 2 0 [] [] with fault := some (.invalidInstruction 1 0) }

/-- A halted machine: V-run-3, N = 4. -/
def haltedState : State := { fetching 4 0 [] [] with n := 4 }

/-- The state meets the invariant. -/
theorem inv_of {s : State} (h : s.params.wf ∧ s.n ≤ s.params.imemWords ∧ Memory.risingFrom 0 s.im = true ∧
    Memory.below s.params.imemWords s.im = true ∧ Memory.wf s.dm = true ∧ Memory.below s.params.dmemWords s.dm = true ∧
    s.pcInRange) : s.Inv := ⟨h.1, h.2.1, h.2.2.1, h.2.2.2.1, h.2.2.2.2.1, h.2.2.2.2.2.1, h.2.2.2.2.2.2⟩

theorem witness_ResetGivesEveryPieceOfState :
    State.reset = State.reset ∧ faultedState.resetEvent = faultedState.resetEvent ∧ faultedState ≠ faultedState.resetEvent := by
  decide

/-- A program that just fits, with its last cell preloaded, and one that is one word too long. -/
theorem witness_LaunchPlacesProgramInOrder :
    (∃ s, launch ⟨2, 64⟩ [0x08000001, 0x08000000] (regs [(31, 7)]) [(63, 5)] = some s) ∧ 2 ≤ 2 ∧
      (⟨1, 64⟩ : Config.Params).imemWords < [0x08000001#32, 0x08000000#32].length :=
  ⟨⟨_, rfl⟩, by decide, by decide⟩

/-- The last cell that exists and the first that does not. -/
theorem witness_PreloadSetsOneCell :
    Memory.wf haltedState.dm = true ∧ 63 < haltedState.params.dmemWords ∧ haltedState.params.dmemWords ≤ 64 := by decide

theorem witness_StatusAndRestingMachine :
    haltedState.status ≠ .running ∧ stepsTo haltedState (fun t => t == haltedState) = true ∧
      faultedState.status = .faulted := by decide

theorem witness_FaultedMachineStaysStopped : faultedState.fault = some (.invalidInstruction 1 0) := by decide

theorem witness_HaltedStateIsStable : haltedState.status = .halted ∧ State.reset.status = .halted := by decide

theorem witness_EndOfRunIsUnique : EndOfRun haltedState haltedState :=
  ⟨0, rfl, by decide, fun j _ hj => absurd hj (Nat.not_lt_zero j)⟩

/-- A machine about to execute its last word (index N - 1 = 15), and one at index 0. -/
theorem witness_StepRunsDecodedInstruction :
    ((fetching 15 0x00221820 [] []).AboutToExecute 0x00221820 ∧ decodeWord 0x00221820 = .ok (.add 3 1 2)) ∧
      (fetching 0 0x0800FFFF [] []).AboutToExecute 0x0800FFFF ∧ decodeWord 0x0800FFFF = .ok (.j (-1)) :=
  ⟨⟨about (by decide), by decide⟩, about (by decide), by decide⟩

/-- V-run-5 (clause 1), pc = 0 and pc = N - 1 (clause 2), pc = N (clause 3). -/
theorem witness_NegativeFetchRaises :
    ((fetching (-1) 0 [] []).status = .running ∧ (fetching (-1) 0 [] []).pc.toInt < 0) ∧
    ((fetching 0 0 [] []).n ≤ (fetching 0 0 [] []).params.imemWords ∧ (fetching 0 0 [] []).status = .running ∧
      0 ≤ (fetching 0 0 [] []).pc.toInt) ∧
    ((fetching 15 0 [] []).status = .running ∧ 0 ≤ (fetching 15 0 [] []).pc.toInt) ∧
    (haltedState.fault = none ∧ (haltedState.n : Int) ≤ haltedState.pc.toInt ∧
      stepsTo haltedState (fun t => t == haltedState) = true) := by decide

theorem witness_UnrecognisedWordRaises :
    ((fetching 5 0x03E00008 [] []).AboutToExecute 0x03E00008 ∧ ∀ m : Op, 0x03E00008#32 &&& m.mask ≠ m.matchBits) ∧
      haltedState.fault = none ∧ (haltedState.n : Int) ≤ haltedState.pc.toInt :=
  ⟨⟨about (by decide), by intro m; cases m <;> decide⟩, by decide, by decide⟩

theorem witness_RecognitionIsMaskAndMatch : ∀ m : Op, 0x03E00008#32 &&& m.mask ≠ m.matchBits := by
  intro m; cases m <;> decide

theorem witness_NoWordMatchesTwoOperations :
    0x03FFFFEA#32 &&& Op.slt.mask = Op.slt.matchBits ∧ 0x0FFFFFFF#32 &&& Op.jal.mask = Op.jal.matchBits := by decide

theorem witness_IgnoredBitsChangeNothing :
    0x2A#6 ∈ [0x20#6, 0x25#6, 0x26#6, 0x2A#6] ∧ 0x03#6 ∈ [0x02#6, 0x03#6] ∧
      decodeWord 0x60220003 = .ok (.subi 2 1 3) ∧ (Instr.subi 2 1 3).op.format = .I := by decide

/-- K at both ends of its range. -/
theorem witness_DecodeReadsBackEncode :
    (Instr.lw 31 0 (-32768)).wf = true ∧ (Instr.bge 0 31 32767).wf = true ∧ (Instr.add 31 0 31).wf = true := by decide

theorem witness_EncodeRebuildsDecodedWord :
    decodeWord 0x002218E0 = .ok (.add 3 1 2) ∧ decodeWord 0x0BFF0005 = .ok (.j 5) ∧
      decodeWord 0x60228000 = .ok (.subi 2 1 (-32768)) := by decide

theorem witness_StepIsTheDatapathOfTheWord :
    (fetching 0 0x8C220004 [] []).AboutToExecute 0x8C220004 ∧ opOf 0x8C220004 = .ok .lw := ⟨about (by decide), by decide⟩

theorem witness_DecodeSnapshotsBothOperands :
    (31 : Reg).val = ((0x67E00000 : Word).extractLsb' 21 5).toNat ∧
      (0 : Reg).val = ((0x67E00000 : Word).extractLsb' 16 5).toNat := by decide

theorem witness_OnlyLoadAndStoreAccessMemory :
    (signals (Instr.j 5).op).memRead = false ∧ (signals (Instr.j 5).op).memWrite = false ∧
      exec (.j 5) State.reset = .next (datapath .j (State.reset.fieldsJ 5) State.reset) := ⟨rfl, rfl, rfl⟩

theorem witness_NoDestinationIsUnreachable :
    step (fetching 0 0x08000005 [] []) = .next (stepOf (fetching 0 0x08000005 [] [])) := step_stepOf _ (by decide)

theorem witness_SltComparesSignedReadings :
    (0x80000000 : Word).toInt < (0x7FFFFFFF : Word).toInt ∧ (5 : Word).toInt ≤ (5 : Word).toInt := by decide

/-! The five arithmetic and logic instructions and the two jumps: the word of the rule, ignored bits set, at the machine's
pc. -/

theorem witness_AddFollowsItsRule :
    (fetching 15 0x002218E0 [] []).AboutToExecute (layoutR 0b000000 1 2 3 3 0b100000) := about (by decide)
theorem witness_OrFollowsItsRule :
    (fetching 0 0x00A52825 [] []).AboutToExecute (layoutR 0b000000 5 5 5 0 0b100101) := about (by decide)
theorem witness_XorFollowsItsRule :
    (fetching 0 0x00842026 [] []).AboutToExecute (layoutR 0b000000 4 4 4 0 0b100110) := about (by decide)
theorem witness_SltFollowsItsRule :
    (fetching 0 0x0022182A [] []).AboutToExecute (layoutR 0b000000 1 2 3 0 0b101010) := about (by decide)
theorem witness_SubiFollowsItsRule :
    (fetching 0 0x60228000 [] []).AboutToExecute (layoutI 0b011000 1 2 0x8000) := about (by decide)
theorem witness_JumpFollowsItsRule :
    (fetching 0 0x0BFF0005 [] []).AboutToExecute (layoutJ 0b000010 0x3FF 5) := about (by decide)
theorem witness_JalFollowsItsRule :
    (fetching 7 0x0D550005 [] []).AboutToExecute (layoutJ 0b000011 0x155 5) := about (by decide)

/-- `lw $2,0($1)` and `sw $2,0($1)` at the last cell, the first address out of range, address 0 and address -1. -/
theorem witness_LwFollowsItsRule :
    (fetching 0 0x8C220000 [(1, 63)] []).AboutToExecute (layoutI 0b100011 1 2 0) ∧
    (let a := ((fetching 0 0x8C220000 [(1, 63)] []).reg 1 + (0 : BitVec 16).signExtend 32).toInt; 0 ≤ a ∧ a < 64) ∧
    (let a := ((fetching 0 0x8C220000 [(1, 64)] []).reg 1 + (0 : BitVec 16).signExtend 32).toInt; 64 ≤ a) ∧
    (let a := ((fetching 0 0x8C220001 [(1, 0xFFFFFFFF)] []).reg 1 + BitVec.ofInt 32 1).toInt; 0 ≤ a ∧ a < 64) ∧
    (let a := ((fetching 0 0x8C22FFFF [] []).reg 1 + BitVec.ofInt 32 (-1)).toInt; a < 0) :=
  ⟨about (by decide), by decide, by decide, by decide, by decide⟩
theorem witness_SwFollowsItsRule :
    (fetching 0 0xAC220003 [(1, 60)] []).AboutToExecute (layoutI 0b101011 1 2 3) ∧
    (let a := ((fetching 0 0xAC220003 [(1, 60)] []).reg 1 + (3 : BitVec 16).signExtend 32).toInt; 0 ≤ a ∧ a < 64) ∧
    (let a := ((fetching 0 0xAC220004 [(1, 60)] []).reg 1 + (4 : BitVec 16).signExtend 32).toInt; 64 ≤ a) ∧
    (let a := ((fetching 0 0xAC220001 [(1, 0xFFFFFFFF)] []).reg 1 + BitVec.ofInt 32 1).toInt; 0 ≤ a ∧ a < 64) ∧
    (let a := ((fetching 0 0xAC22FFFF [] []).reg 1 + BitVec.ofInt 32 (-1)).toInt; a < 0) :=
  ⟨about (by decide), by decide, by decide, by decide, by decide⟩

/-- V-bge-3 (difference 0: taken) and a difference of -1 (not taken). -/
theorem witness_BgeFollowsItsRule :
    (fetching 0 0x64220005 [(1, 4), (2, 4)] []).AboutToExecute (layoutI 0b011001 1 2 5) ∧
    0 ≤ ((fetching 0 0x64220005 [(1, 4), (2, 4)] []).reg 1 - (fetching 0 0x64220005 [(1, 4), (2, 4)] []).reg 2).toInt ∧
    ((fetching 0 0x64220005 [(1, 4), (2, 5)] []).reg 1 - (fetching 0 0x64220005 [(1, 4), (2, 5)] []).reg 2).toInt < 0 :=
  ⟨about (by decide), by decide, by decide⟩

theorem witness_RegisterZeroIsOrdinary :
    Memory.wf (fetching 0 0xAC020000 [(0, 3)] []).dm = true ∧
      0 ≤ ((fetching 0 0xAC020000 [(0, 3)] []).reg 0 + BitVec.ofInt 32 0).toInt ∧
      ((fetching 0 0xAC020000 [(0, 3)] []).reg 0 + BitVec.ofInt 32 0).toInt
        < (fetching 0 0xAC020000 [(0, 3)] []).params.dmemWords := by decide

theorem witness_DataAccessIsBoundsChecked :
    (-1 : Int) < 0 ∧ (haltedState.params.dmemWords : Int) ≤ 64 ∧ (0 : Int) ≤ 63 ∧ (63 : Int) < haltedState.params.dmemWords ∧
      Memory.wf haltedState.dm = true := by decide

/-- A store of 7 to cell 3 (`sw $2,0($0)` with x[0] = 3), then loads of cell 3 and of cell 0. -/
theorem witness_LoadSeesLatestStore :
    let s := fetching 0 0 [(0, 3), (2, 7)] []
    Memory.wf s.dm = true ∧ s.fault = none ∧
      exec (.sw 2 0 0) s = .next (s.setCell 3 7) ∧ (s.setCell 3 7).fault = none ∧
      s.dataInRange ((s.setCell 3 7).effectiveAddress 0 0) = true ∧
      (s.setCell 3 7).effectiveAddress 0 0 = s.effectiveAddress 0 0 ∧
      s.dataInRange ((s.setCell 3 7).effectiveAddress 1 0) = true ∧
      (s.setCell 3 7).effectiveAddress 1 0 ≠ s.effectiveAddress 0 0 :=
  ⟨by decide, by decide, rfl, by decide, by decide, by decide, by decide, by decide⟩

theorem witness_EqualCellsAreEqualMemories :
    Memory.wf (Memory.write [] 3 7) = true ∧ Memory.wf (Memory.write (Memory.write [] 3 7) 4 0) = true ∧
      ∀ a, Memory.read (Memory.write [] 3 7) a = Memory.read (Memory.write (Memory.write [] 3 7) 4 0) a :=
  ⟨by decide, by decide, fun _ => rfl⟩

/-- An `add`, a `lw` in range, and a `lw` out of range, that give a next state. -/
theorem witness_RegisterWritersFrame :
    exec (.add 3 1 2) State.reset = .next (datapath .add (State.reset.fieldsR 3 1 2) State.reset) ∧
      exec (.lw 3 1 0) haltedState = .next (haltedState.setReg 3 0) ∧
      exec (.lw 3 1 (-1)) haltedState = .next (haltedState.raise (.dataAddressOutOfRange (-1))) := ⟨rfl, rfl, rfl⟩

theorem witness_StoreFrame :
    Memory.wf haltedState.dm = true ∧ exec (.sw 3 1 63) haltedState = .next (haltedState.setCell 63 0) ∧
      haltedState.dataInRange (haltedState.effectiveAddress 1 63) = true ∧
      exec (.sw 3 1 64) haltedState = .next (haltedState.raise (.dataAddressOutOfRange 64)) ∧
      haltedState.dataInRange (haltedState.effectiveAddress 1 64) = false :=
  ⟨by decide, rfl, by decide, rfl, by decide⟩

theorem witness_TransferFrame :
    isTransfer (.jal 5) = true ∧ exec (.jal 5) haltedState = .next ((haltedState.setReg 31 4).setPc 5) ∧
      isTransfer (.bge 1 2 5) = true ∧ exec (.bge 1 2 5) haltedState = .next (haltedState.setPc 9) :=
  ⟨rfl, rfl, rfl, rfl⟩

/-- The state the whole-machine rules are met in: `sw $2,4($1)` at its last index, about to raise (V-mem-11). -/
def raising : State := fetching 15 0xAC220004 [(1, 60), (2, 0xFFFFFFFF)] []

theorem witness_StepChangesOnlyWhatItsRuleNames :
    Memory.wf raising.dm = true ∧ raising.AboutToExecute 0xAC220004 ∧ decodeWord 0xAC220004 = .ok (.sw 2 1 4) ∧
      step raising = .next (stepOf raising) :=
  ⟨by decide, about (by decide), by decide, step_stepOf _ (by decide)⟩

theorem witness_RunNeverChangesInstructionMemory : Host.Core.run Sys2Proof.core 1 raising = .next (stepOf raising) := rfl

theorem witness_StepKeepsInvariant : raising.Inv ∧ step raising = .next (stepOf raising) :=
  ⟨inv_of (by decide), step_stepOf _ (by decide)⟩

/-- The three causes a program can raise: V-mem-11, V-inv-6, V-run-5; each state meets the invariant. -/
theorem witness_FaultRegisterTellsTheTruth :
    (raising.Inv ∧ stepsTo raising (fun t => t.fault == some (.dataAddressOutOfRange 64)) = true) ∧
    ((fetching 5 0x03E00008 [] []).Inv ∧
      stepsTo (fetching 5 0x03E00008 [] []) (fun t => t.fault == some (.invalidInstruction 5 0x03E00008)) = true) ∧
    ((State.setPc (fetching 0 0 [] []) (-1)).Inv ∧
      stepsTo (State.setPc (fetching 0 0 [] []) (-1)) (fun t => t.fault == some (.fetchAddressOutOfRange (-1))) = true) :=
  ⟨⟨inv_of (by decide), by decide⟩, ⟨inv_of (by decide), by decide⟩, inv_of (by decide), by decide⟩

theorem witness_LaunchedRunsStayInInvariant :
    (⟨2, 64⟩ : Config.Params).wf ∧ ∃ s t, launch ⟨2, 64⟩ [0x0C00FFFF, 0x00211020] (regs []) [] = some s ∧
      Host.Core.run Sys2Proof.core 2 s = .next t ∧ t.fault = some (.fetchAddressOutOfRange (-1)) :=
  ⟨by decide, _, _, rfl, rfl, rfl⟩

/-- `bge $1,$2,5` with x[1] = 4 and x[2] = `b`. -/
def branching (b : Word) : State := fetching 0 0x64220005 [(1, 4), (2, b)] []

/-- All hypotheses, in a state of each clause: no transfer (at the last index), a branch whose difference is 0 (taken) and
one whose difference is -1 (not taken), a jump to the lowest target. -/
theorem witness_PcAfterEachInstruction :
    (raising.Inv ∧ raising.AboutToExecute 0xAC220004 ∧ decodeWord 0xAC220004 = .ok (.sw 2 1 4) ∧
      step raising = .next (stepOf raising) ∧ isTransfer (.sw 2 1 4) = false) ∧
    decodeWord 0x64220005 = .ok (.bge 1 2 5) ∧
    ((branching 4).Inv ∧ (branching 4).AboutToExecute 0x64220005 ∧ step (branching 4) = .next (stepOf (branching 4)) ∧
      0 ≤ ((branching 4).reg 1 - (branching 4).reg 2).toInt) ∧
    ((branching 5).Inv ∧ (branching 5).AboutToExecute 0x64220005 ∧ step (branching 5) = .next (stepOf (branching 5)) ∧
      ((branching 5).reg 1 - (branching 5).reg 2).toInt < 0) ∧
    ((fetching 0 0x08008000 [] []).Inv ∧ (fetching 0 0x08008000 [] []).AboutToExecute 0x08008000 ∧
      decodeWord 0x08008000 = .ok (.j (-32768)) ∧
      step (fetching 0 0x08008000 [] []) = .next (stepOf (fetching 0 0x08008000 [] []))) :=
  ⟨⟨inv_of (by decide), about (by decide), by decide, step_stepOf _ (by decide), by decide⟩, by decide,
    ⟨inv_of (by decide), about (by decide), step_stepOf _ (by decide), by decide⟩,
    ⟨inv_of (by decide), about (by decide), step_stepOf _ (by decide), by decide⟩,
    inv_of (by decide), about (by decide), by decide, step_stepOf _ (by decide)⟩

/-- Targets inside the program, at N, and at -1. -/
theorem witness_TargetIsJudgedAtTheNextStep :
    ((fetching 3 0x08000003 [] []).AboutToExecute 0x08000003 ∧ decodeWord 0x08000003 = .ok (.j 3) ∧
      stepsTo (fetching 3 0x08000003 [] []) (fun t => decide (0 ≤ t.pc.toInt ∧ t.pc.toInt < t.n)) = true) ∧
    stepsTo (fetching 3 0x08000010 [] []) (fun t => decide ((t.n : Int) ≤ t.pc.toInt)) = true ∧
    stepsTo (fetching 3 0x0800FFFF [] []) (fun t => decide (t.pc.toInt < 0)) = true :=
  ⟨⟨about (by decide), by decide, by decide⟩, by decide, by decide⟩

/-- Two machines that differ in a register, at a `bge`, come to different targets. -/
theorem witness_RegistersNeverReachThePc :
    let s := fetching 0 0x64220005 [(1, 4), (2, 4)] []
    let s' := fetching 0 0x64220005 [(1, 4), (2, 5)] []
    s'.pc = s.pc ∧ s'.im = s.im ∧ s'.n = s.n ∧ s'.fault = s.fault ∧
      stepsTo s (fun t => t.pc == 6) = true ∧ stepsTo s' (fun t => t.pc == 1) = true := by decide

theorem witness_SelfBranchRunsForEver :
    ((fetching 3 0x08000003 [] []).AboutToExecute 0x08000003 ∧
      decodeWord 0x08000003 = .ok (.j (fetching 3 0x08000003 [] []).pc.toInt)) ∧
    (fetching 3 0x6421FFFF [(1, 0x80000000)] []).AboutToExecute 0x6421FFFF ∧ decodeWord 0x6421FFFF = .ok (.bge 1 1 (-1)) ∧
      0 ≤ ((fetching 3 0x6421FFFF [(1, 0x80000000)] []).reg 1 - (fetching 3 0x6421FFFF [(1, 0x80000000)] []).reg 1).toInt :=
  ⟨⟨about (by decide), by decide⟩, about (by decide), by decide, by decide⟩

end Sys2Proof.Tests
end

section
/-! PROOFS. What reset gives (10_state.md R24), the machine at rest (R25), and register 0 (R11). -/
namespace Sys2Proof.Machine

/-! ## The state after the reset event; `State.reset` is one such state -/

/-- Reset is the reset event of a machine with the same capacities (log entry 2). -/
theorem State.resetEvent_reset : State.reset.resetEvent = State.reset := rfl

@[simp] theorem State.resetEvent_pc (s : State) : s.resetEvent.pc = 0 := rfl
@[simp] theorem State.resetEvent_n (s : State) : s.resetEvent.n = 0 := rfl
@[simp] theorem State.resetEvent_fault (s : State) : s.resetEvent.fault = none := rfl

@[simp] theorem State.reg_resetEvent (s : State) (q : Reg) : s.resetEvent.reg q = 0 := by
  simp [State.reg, State.resetEvent, State.reset]

/-- No cell is listed after reset, and an unlisted cell reads 0. -/
@[simp] theorem State.cell_resetEvent (s : State) (a : Nat) : s.resetEvent.cell a = 0 := rfl

/-- With N = 0, `pc` = 0 is already past the end. -/
theorem State.status_resetEvent (s : State) : s.resetEvent.status = .halted :=
  State.status_halted_iff.2 ⟨s.resetEvent_fault, by simp⟩

/-- Settles O1: both states of the statement are the result of a reset event. -/
theorem resetGivesEveryPieceOfState : Obligations.ResetGivesEveryPieceOfState := by
  intro s r hr
  obtain ⟨u, rfl⟩ : ∃ u : State, r = u.resetEvent := by
    rcases hr with rfl | rfl
    · exact ⟨State.reset, State.resetEvent_reset.symm⟩
    · exact ⟨s, rfl⟩
  exact ⟨u.reg_resetEvent, u.resetEvent_pc, u.cell_resetEvent, u.resetEvent_n, u.resetEvent_fault,
    u.status_resetEvent⟩

/-! ## The machine at rest -/

/-- Of all that a step can do, only what a halted machine does is open to a machine that is not running. -/
theorem step_eq_self_of_not_running {s t : State} (hs : s.status ≠ .running) (h : step s = .next t) : t = s := by
  obtain ⟨-, ⟨-, rfl⟩ | ⟨hr, -⟩ | ⟨hr, -⟩ | ⟨hr, -⟩⟩ := step_inversion h
  · rfl
  · exact absurd hr hs
  · exact absurd hr hs
  · exact absurd hr hs

/-- Settles O5, by the law of each status and the case list of a step. -/
theorem statusAndRestingMachine : Obligations.StatusAndRestingMachine := fun _ =>
  ⟨State.status_faulted_iff, State.status_halted_iff, State.status_running_iff,
    fun hs _ => step_eq_self_of_not_running hs⟩

/-! ## Register 0 -/

/-- `add` on every operand, `rd` = 0 and aliased registers included (42_arithmetic_logic.md R120). -/
theorem exec_add (rd rs rt : Reg) (s : State) :
    exec (.add rd rs rt) s = .next (s.setReg rd (s.reg rs + s.reg rt)) :=
  congrArg Host.Outcome.next (datapath_add (s.fieldsR rd rs rt) s)

/-- `sw` at an address in range (43_load_store.md R131). -/
theorem exec_sw_inRange {rt rs : Reg} {k : Int} {s : State} (h : s.dataInRange (s.effectiveAddress rs k) = true) :
    exec (.sw rt rs k) s = .next (s.setCell (s.effectiveAddress rs k).toNat (s.reg rt)) :=
  congrArg Host.Outcome.next (datapath_sw_inRange (f := s.fieldsI rt rs k) h)

/-- Settles O39: the laws of the register file, of `add` and of `sw` hold of every register, so of register 0. -/
theorem registerZeroIsOrdinary : Obligations.RegisterZeroIsOrdinary := by
  refine ⟨fun r => State.reset.reg_resetEvent r, fun s r q v => State.reg_setReg s r v q, fun rs rt s => ?_,
    fun rt k s hwf hlo hhi => ?_⟩
  · exact ⟨_, exec_add 0 rs rt s, State.reg_setReg_same s 0 _⟩
  · have hin : s.dataInRange (s.effectiveAddress 0 k) = true := (State.dataInRange_iff s _).2 ⟨hlo, hhi⟩
    exact ⟨_, exec_sw_inRange hin, State.cell_setCell_same hwf _ _⟩

end Sys2Proof.Machine
end

section
/-! PROOFS. The Instruction Memory (20_memory.md R42): the host writes it, and N, before a run; no step does. -/
namespace Sys2Proof.Machine

/-- The two states hold the same program: Instruction Memory, N, and the capacities of the machine. -/
structure State.SameProgram (s t : State) : Prop where
  im : t.im = s.im
  n : t.n = s.n
  params : t.params = s.params

theorem State.SameProgram.refl (s : State) : s.SameProgram s := ⟨rfl, rfl, rfl⟩

theorem State.SameProgram.trans {s t u : State} (hst : s.SameProgram t) (htu : t.SameProgram u) : s.SameProgram u :=
  ⟨htu.im.trans hst.im, htu.n.trans hst.n, htu.params.trans hst.params⟩

/-- Fetch reads the Instruction Memory alone (R31). -/
theorem State.SameProgram.wordAt {s t : State} (h : s.SameProgram t) (a : Word) : t.wordAt a = s.wordAt a :=
  congrArg (Memory.readProgram · a.toNat) h.im

/-! The named operations of the state keep the program. -/

theorem State.sameProgram_setReg (s : State) (r : Reg) (v : Word) : s.SameProgram (s.setReg r v) := ⟨rfl, rfl, rfl⟩
theorem State.sameProgram_setCell (s : State) (a : Nat) (v : Word) : s.SameProgram (s.setCell a v) := ⟨rfl, rfl, rfl⟩
theorem State.sameProgram_setPc (s : State) (p : Word) : s.SameProgram (s.setPc p) := ⟨rfl, rfl, rfl⟩
theorem State.sameProgram_raise (s : State) (c : Cause) : s.SameProgram (s.raise c) := ⟨rfl, rfl, rfl⟩

/-- No instruction writes the program: `sw` reaches the Data Memory alone (R33, R42). -/
theorem exec_sameProgram {i : Instr} {s t : State} (h : exec i s = .next t) : s.SameProgram t := by
  obtain ⟨r, v, -, -, rfl⟩ | ⟨_, _, _, -, -, rfl⟩ | ⟨_, _, _, -, -, rfl⟩ |
    ⟨_, _, k, -, ⟨-, rfl⟩ | ⟨-, rfl⟩⟩ | ⟨k, -, rfl⟩ | ⟨k, -, rfl⟩ := exec_inversion h
  · exact s.sameProgram_setReg r v
  · exact s.sameProgram_setCell _ _
  · exact s.sameProgram_raise _
  · exact s.sameProgram_setPc _
  · exact .refl _
  · exact s.sameProgram_setPc _
  · exact (s.sameProgram_setReg linkReg s.pc).trans (State.sameProgram_setPc _ _)

/-- No step writes the program, whatever it raises. -/
theorem step_sameProgram {s t : State} (h : step s = .next t) : s.SameProgram t := by
  obtain ⟨-, ⟨-, rfl⟩ | ⟨-, -, rfl⟩ | ⟨-, -, -, rfl⟩ | ⟨-, -, i, -, hexec⟩⟩ := step_inversion h
  · exact .refl _
  · exact s.sameProgram_raise _
  · exact (s.sameProgram_setPc (s.pc + 1)).trans (State.sameProgram_raise _ _)
  · exact (s.sameProgram_setPc (s.pc + 1)).trans (exec_sameProgram hexec)

/-- A run of `k + 1` steps that answers a state is a step that answers one, then a run of `k` steps from there. -/
theorem run_succ_inversion {M : Host.Core} {k : Nat} {s t : M.State} (h : M.run (k + 1) s = .next t) :
    ∃ u, M.step s = .next u ∧ M.run k u = .next t := by
  unfold Host.Core.run at h
  split at h
  next u hs => exact ⟨u, hs, h⟩
  next => cases h
  next => cases h

/-- A relation between states that is reflexive and transitive and holds across each step holds across each run. -/
theorem run_induction (M : Host.Core) {R : M.State → M.State → Prop} (hrefl : ∀ s, R s s)
    (htrans : ∀ {s t u}, R s t → R t u → R s u) (hstep : ∀ {s t}, M.step s = .next t → R s t) {k : Nat}
    {s t : M.State} (h : M.run k s = .next t) : R s t := by
  induction k generalizing s with
  | zero =>
    injection h with h
    exact h ▸ hrefl s
  | succ k ih =>
    obtain ⟨u, hsu, hut⟩ := run_succ_inversion h
    exact htrans (hstep hsu) (ih hut)

/-- Settles O47: every step keeps the program, so every run does, and a fetch reads nothing but the program. -/
theorem runNeverChangesInstructionMemory : Obligations.RunNeverChangesInstructionMemory := by
  intro k s t h
  have hp : s.SameProgram t :=
    run_induction Sys2Proof.core State.SameProgram.refl State.SameProgram.trans step_sameProgram h
  exact ⟨hp.wordAt, hp.n, hp.params⟩

end Sys2Proof.Machine
end

section
/-! PROOFS. The fields of a word (30_encoding.md R51), and recognition by lookup as the mask and match test (R56, R58). -/
namespace Sys2Proof

open Machine (layoutR layoutI)

/-! ## The places of the fields -/

/-- In an R-format word the bits of rd, 10:6 and func are the immediate field, which an I-format word holds there. -/
theorem layoutR_eq_layoutI (opcode func : BitVec 6) (rs rt rd : Reg) (ignored : BitVec 5) :
    layoutR opcode rs rt rd ignored func = layoutI opcode rs rt (BitVec.ofNat 5 rd.val ++ ignored ++ func) := by
  simp only [layoutR, layoutI, BitVec.append_assoc, BitVec.cast_eq]

/-- The fields an I-format word names (R51, R53). -/
theorem layoutI_fields (opcode : BitVec 6) (rs rt : Reg) (imm : BitVec 16) :
    (fieldsOf (layoutI opcode rs rt imm)).opcode = opcode ∧ (fieldsOf (layoutI opcode rs rt imm)).rs = rs ∧
      (fieldsOf (layoutI opcode rs rt imm)).rt = rt ∧ (fieldsOf (layoutI opcode rs rt imm)).imm = imm.toInt := by
  simp (disch := decide) only [fieldsOf, layoutI, BitVec.extractLsb'_append_eq_of_le, Nat.reduceSub,
    BitVec.extractLsb'_eq_self, BitVec.extractLsb'_append_eq_right, regOfBits_ofNat, and_self]

/-- The two fields an R-format word names beyond those of an I-format word (R51, R53). -/
theorem layoutR_rd_func (opcode func : BitVec 6) (rs rt rd : Reg) (ignored : BitVec 5) :
    (fieldsOf (layoutR opcode rs rt rd ignored func)).rd = rd ∧
      (fieldsOf (layoutR opcode rs rt rd ignored func)).func = func := by
  simp (disch := decide) only [fieldsOf, layoutR, BitVec.extractLsb'_append_eq_of_le, Nat.reduceSub,
    BitVec.extractLsb'_append_eq_right, regOfBits_ofNat, and_self]

/-- Settles O12: rd and func are cut inside the immediate field, the other fields are those of an I-format word, and the
sign extension keeps the signed reading. -/
theorem fieldsAreCutFromTheirPlaces : Obligations.FieldsAreCutFromTheirPlaces := by
  intro opcode func rs rt rd ignored
  obtain ⟨hrd, hfunc⟩ := layoutR_rd_func opcode func rs rt rd ignored
  obtain ⟨hop, hrs, hrt, himm⟩ := layoutI_fields opcode rs rt (BitVec.ofNat 5 rd.val ++ ignored ++ func)
  rw [← layoutR_eq_layoutI] at hop hrs hrt himm
  have hsext := BitVec.toInt_signExtend_of_le (x := BitVec.ofNat 5 rd.val ++ ignored ++ func) (w := 16) (v := 32)
    (by decide)
  exact (Fields.mk.injEq ..).mpr ⟨hop, hrs, hrt, hrd, hfunc, himm.trans hsext.symm⟩

/-! ## What the lookups find -/

/-- The func lookup finds only R-format operations with that func. -/
theorem recogniseFunc_sound {func : BitVec 6} {m : Op} (h : recogniseFunc func = .ok m) :
    m.opcode = Op.add.opcode ∧ m.func = some func := by
  unfold recogniseFunc at h
  split_ifs at h with hf hf hf hf <;> cases h <;> exact ⟨rfl, hf⟩

/-- The two lookups find an operation exactly at its own row of ENC (R56). -/
theorem recognise_eq_ok_iff {opcode func : BitVec 6} {m : Op} :
    recognise opcode func = .ok m ↔ opcode = m.opcode ∧ (m.func = none ∨ m.func = some func) := by
  constructor
  · intro h
    unfold recognise at h
    split_ifs at h with hop hop hop hop hop hop hop
    · obtain ⟨hm, hfunc⟩ := recogniseFunc_sound h
      exact ⟨hop.trans hm.symm, .inr hfunc⟩
    all_goals
      cases h
      exact ⟨hop, .inl rfl⟩
  · rintro ⟨rfl, hfunc⟩
    exact recognise_enc m hfunc

/-! ## The mask and match test, on the bit groups 31:26, 25:6 and 5:0 -/

/-- Two concatenations of the same widths are equal group by group. -/
theorem bitVec_append_inj {n k : Nat} {a a' : BitVec n} {b b' : BitVec k} :
    a ++ b = a' ++ b' ↔ a = a' ∧ b = b' := by
  refine ⟨fun h => ⟨?_, ?_⟩, fun ⟨ha, hb⟩ => by rw [ha, hb]⟩
  · simpa only [BitVec.extractLsb'_append_eq_left] using congrArg (BitVec.extractLsb' k n) h
  · simpa only [BitVec.extractLsb'_append_eq_right] using congrArg (BitVec.extractLsb' 0 k) h

theorem word_eq_groups (w : Word) : w = (fieldsOf w).opcode ++ w.extractLsb' 6 20 ++ (fieldsOf w).func := by
  have htop : (fieldsOf w).opcode ++ w.extractLsb' 6 20 = w.extractLsb' 6 26 :=
    BitVec.extractLsb'_append_extractLsb'_eq_extractLsb' rfl
  rw [htop]
  exact (BitVec.extractLsb'_append_extractLsb' (w := 26) (len := 6)).symm

/-- Every mask examines the opcode, and `func` where the row of ENC has one. -/
theorem Op.mask_eq_groups (m : Op) :
    m.mask = BitVec.allOnes 6 ++ 0#20 ++ (if m.func = none then 0#6 else BitVec.allOnes 6) := by
  cases m <;> rfl

theorem Op.matchBits_eq_groups (m : Op) : m.matchBits = m.opcode ++ 0#20 ++ m.func.getD 0#6 := by
  cases m <;> rfl

/-- The mask and match test looks at the opcode, and at `func` where the row has one. -/
theorem and_mask_eq_matchBits_iff (w : Word) (m : Op) :
    w &&& m.mask = m.matchBits ↔
      (fieldsOf w).opcode = m.opcode ∧ (m.func = none ∨ m.func = some (fieldsOf w).func) := by
  have hand : w &&& m.mask =
      (fieldsOf w).opcode ++ 0#20 ++ ((fieldsOf w).func &&& if m.func = none then 0#6 else BitVec.allOnes 6) := by
    conv_lhs => rw [word_eq_groups w, m.mask_eq_groups]
    rw [BitVec.and_append, BitVec.and_append, BitVec.and_allOnes, BitVec.and_zero]
  rw [hand, m.matchBits_eq_groups, bitVec_append_inj, bitVec_append_inj]
  cases m.func with
  | none => simp
  | some f => simp [-BitVec.reduceAllOnes, eq_comm]

/-- The operation of a word is the one whose test it passes (R56). -/
theorem opOf_eq_ok_iff (w : Word) (m : Op) : opOf w = .ok m ↔ w &&& m.mask = m.matchBits :=
  recognise_eq_ok_iff.trans (and_mask_eq_matchBits_iff w m).symm

/-- What the decoder answers for a word with no operation. -/
theorem decodeWord_of_opOf_error {w : Word} {e : DecodeError} (h : opOf w = .error e) : decodeWord w = .error e := by
  simp only [decodeWord, h]

/-- Settles O13: lookup and test agree on every row, so a word that passes no test is found by no lookup. -/
theorem recognitionIsMaskAndMatch : Obligations.RecognitionIsMaskAndMatch := by
  refine ⟨opOf_eq_ok_iff, fun w hnone => ?_, fun m => ?_⟩
  · cases h : opOf w with
    | ok m => exact absurd ((opOf_eq_ok_iff w m).1 h) (hnone m)
    | error e => exact ⟨e, rfl, decodeWord_of_opOf_error h⟩
  · cases m <;> decide

/-- Settles O14: the lookup gives a word one answer, which is every operation whose test the word passes. -/
theorem noWordMatchesTwoOperations : Obligations.NoWordMatchesTwoOperations := by
  intro w m₁ m₂ h₁ h₂
  have hsame : Except.ok m₁ = (Except.ok m₂ : Except DecodeError Op) :=
    ((opOf_eq_ok_iff w m₁).2 h₁).symm.trans ((opOf_eq_ok_iff w m₂).2 h₂)
  injection hsame

end Sys2Proof
end

section
/-! PROOFS. The control table (40_cycle_and_decode.md R76), the operands Decode snapshots (R78), and the instructions
without a memory access (R85). -/
namespace Sys2Proof.Machine

/-- Settles O21: each of the ten rows is a value to compute. -/
theorem controlTableRows : Obligations.ControlTableRows := by
  unfold Obligations.ControlTableRows
  decide

/-- Settles O22: Decode reads the registers of the fields rs and rt, which are cut from the same bits in every format. -/
theorem decodeSnapshotsBothOperands : Obligations.DecodeSnapshotsBothOperands := by
  intro m w s rs rt hrs hrt
  have hrs : (fieldsOf w).rs = rs := Fin.ext hrs.symm
  have hrt : (fieldsOf w).rt = rt := Fin.ext hrt.symm
  exact ⟨congrArg s.reg hrs, congrArg s.reg hrt⟩

/-! ## Which row of the control table has which memory signal -/

theorem signals_memRead_iff (m : Op) : (signals m).memRead = true ↔ m = .lw := by
  cases m <;> decide

theorem signals_memWrite_iff (m : Op) : (signals m).memWrite = true ↔ m = .sw := by
  cases m <;> decide

/-- Settles O23: the two signals stand in the rows of `lw` and `sw`. Of all that `exec` can do, a cell write is an `sw` and
a raise an `lw` or `sw`; what is left writes registers and `pc` alone. -/
theorem onlyLoadAndStoreAccessMemory : Obligations.OnlyLoadAndStoreAccessMemory := by
  refine ⟨fun m ⟨hread, hwrite⟩ => ?_, fun i s t hread hwrite hexec => ?_⟩
  · have hlw : m = .lw := (signals_memRead_iff m).1 hread
    have hsw : m = .sw := (signals_memWrite_iff m).1 hwrite
    exact absurd (hlw.symm.trans hsw) (by decide)
  · have hlw : i.op ≠ .lw := fun h => Bool.eq_false_iff.1 hread ((signals_memRead_iff _).2 h)
    have hsw : i.op ≠ .sw := fun h => Bool.eq_false_iff.1 hwrite ((signals_memWrite_iff _).2 h)
    obtain ⟨_, _, -, -, rfl⟩ | ⟨_, _, _, rfl, -, -⟩ | ⟨_, _, _, rfl | rfl, -, -⟩ |
      ⟨_, _, _, -, ⟨-, rfl⟩ | ⟨-, rfl⟩⟩ | ⟨_, -, rfl⟩ | ⟨_, -, rfl⟩ := exec_inversion hexec
    · exact ⟨rfl, rfl⟩
    · exact absurd rfl hsw
    · exact absurd rfl hlw
    · exact absurd rfl hsw
    all_goals exact ⟨rfl, rfl⟩

end Sys2Proof.Machine
end

section
/-! PROOFS. The arithmetic/logic unit (41_alu.md R102 to R109), and the operations that select each of its functions. -/
namespace Sys2Proof.Machine

/-! ## The control table read by its `aluOp` column -/

/-- The operations whose row of the control table has this `aluOp` (40_cycle_and_decode.md R76). -/
def AluOp.selectedBy : AluOp → List Op
  | .and | .not => []
  | .or => [.or]
  | .xor => [.xor]
  | .add => [.add, .lw, .sw]
  | .sub => [.subi, .bge]
  | .slt => [.slt]
  | .inv => [.j, .jal]

/-- The ten rows against the eight functions: a finite table to check. -/
theorem signals_aluOp_eq_iff (m : Op) (op : AluOp) : (signals m).aluOp = op ↔ m ∈ op.selectedBy := by
  cases m <;> cases op <;> decide

theorem signals_aluOp_ne_of_unselected (m : Op) {op : AluOp} (h : op.selectedBy = []) : (signals m).aluOp ≠ op :=
  fun hop => List.not_mem_nil (h ▸ (signals_aluOp_eq_iff m op).1 hop)

/-! ## The results -/

/-- The adder serves signed and unsigned numbers (R105): the sum of the signed readings has the same low bits. -/
theorem word_add_eq_ofInt_add_toInt (a b : Word) : a + b = BitVec.ofInt 32 (a.toInt + b.toInt) := by
  rw [BitVec.ofInt_add, BitVec.ofInt_toInt, BitVec.ofInt_toInt]

/-- R106: the unsigned reading of the wrapped difference, with the difference taken in the integers. -/
theorem word_toNat_sub_eq_emod (a b : Word) : ((a - b).toNat : Int) = ((a.toNat : Int) - b.toNat) % 2 ^ 32 := by
  have hb : b.toNat < 2 ^ 32 := b.isLt
  rw [BitVec.toNat_sub]
  omega

theorem alu_slt_of_lt {a b : Word} (h : a.toInt < b.toInt) : alu .slt a b = some 1 :=
  congrArg some (if_pos h)

theorem alu_slt_of_le {a b : Word} (h : b.toInt ≤ a.toInt) : alu .slt a b = some 0 :=
  congrArg some (if_neg (Int.not_lt.2 h))

/-- Settles O26: the results are the library's bit laws and the two laws of the adder; the selecting operations are read
off the `aluOp` column. -/
theorem aluBitwiseAndModular : Obligations.AluBitwiseAndModular := by
  refine ⟨fun a b => ⟨?_, ?_, ?_, ?_, ?_, ?_, rfl⟩, fun m => ⟨?_, ?_, ?_, ?_, ?_, ?_, ?_⟩⟩
  · exact ⟨a &&& b, rfl, fun _ => BitVec.getLsbD_and⟩
  · exact ⟨a ||| b, rfl, fun _ => BitVec.getLsbD_or⟩
  · exact ⟨a ^^^ b, rfl, fun _ => BitVec.getLsbD_xor⟩
  · exact ⟨a + b, rfl, BitVec.toNat_add a b, word_add_eq_ofInt_add_toInt a b⟩
  · exact ⟨a - b, rfl, word_toNat_sub_eq_emod a b⟩
  · exact ⟨~~~a, rfl, fun i hi => by rw [BitVec.getLsbD_not, decide_eq_true hi, Bool.true_and]⟩
  · exact signals_aluOp_ne_of_unselected m rfl
  · exact signals_aluOp_ne_of_unselected m rfl
  all_goals
    rw [signals_aluOp_eq_iff]
    simp [AluOp.selectedBy]

/-- Settles O27: the comparison is of the signed readings themselves, so no difference is formed that could wrap. -/
theorem sltComparesSignedReadings : Obligations.SltComparesSignedReadings := fun _ _ =>
  ⟨alu_slt_of_lt, alu_slt_of_le, fun m => (signals_aluOp_eq_iff m .slt).trans List.mem_singleton⟩

end Sys2Proof.Machine
end

section
/-! PROOFS. The arithmetic and logic instructions (42_arithmetic_logic.md R120 to R124): what `exec` of each answers,
and the step on every word of its encoding. -/
namespace Sys2Proof.Machine

/-! ## From the word at `pc` to `exec` -/

/-- The word at `pc` is decoded, and its instruction acts on the state Fetch leaves (40_cycle_and_decode.md R70). -/
theorem State.AboutToExecute.step_eq_exec {s : State} {w : Word} {i : Instr} (h : s.AboutToExecute w)
    (hdecode : decodeWord w = .ok i) : step s = exec i (s.setPc (s.pc + 1)) := by
  rw [step_running h.running, State.fetch_nonneg h.nonneg]
  simp only [h.word, hdecode]

/-- `mk` is the constructor of the R-format operation `m`, applied to the three registers its words name (R52, R53). -/
theorem decodeWord_layoutR (m : Op) (mk : Reg → Reg → Reg → Instr) {func : BitVec 6} (hfunc : m.func = some func)
    (hmk : ∀ f : Fields, f.instr m = mk f.rd f.rs f.rt) (rd rs rt : Reg) (ignored : BitVec 5) :
    decodeWord (layoutR m.opcode rs rt rd ignored func) = .ok (mk rd rs rt) := by
  obtain ⟨hrd, hf⟩ := layoutR_rd_func m.opcode func rs rt rd ignored
  obtain ⟨hop, hrs, hrt, -⟩ := layoutI_fields m.opcode rs rt (BitVec.ofNat 5 rd.val ++ ignored ++ func)
  rw [← layoutR_eq_layoutI] at hop hrs hrt
  have hopOf : opOf (layoutR m.opcode rs rt rd ignored func) = .ok m :=
    recognise_eq_ok_iff.2 ⟨hop, .inr (hfunc.trans (congrArg some hf.symm))⟩
  rw [decodeWord_of_opOf hopOf, hmk, hrd, hrs, hrt]

/-- The same for an I-format operation, whose words name two registers and K. -/
theorem decodeWord_layoutI (m : Op) (mk : Reg → Reg → Int → Instr) (hfunc : m.func = none)
    (hmk : ∀ f : Fields, f.instr m = mk f.rt f.rs f.imm) (rt rs : Reg) (imm : BitVec 16) :
    decodeWord (layoutI m.opcode rs rt imm) = .ok (mk rt rs imm.toInt) := by
  obtain ⟨hop, hrs, hrt, himm⟩ := layoutI_fields m.opcode rs rt imm
  have hopOf : opOf (layoutI m.opcode rs rt imm) = .ok m := recognise_eq_ok_iff.2 ⟨hop, .inl hfunc⟩
  rw [decodeWord_of_opOf hopOf, hmk, hrt, hrs, himm]

/-! ## `exec` on every operand; `exec_add` is among the laws of register 0 -/

theorem exec_or (rd rs rt : Reg) (s : State) :
    exec (.or rd rs rt) s = .next (s.setReg rd (s.reg rs ||| s.reg rt)) :=
  congrArg Host.Outcome.next (datapath_or (s.fieldsR rd rs rt) s)

theorem exec_xor (rd rs rt : Reg) (s : State) :
    exec (.xor rd rs rt) s = .next (s.setReg rd (s.reg rs ^^^ s.reg rt)) :=
  congrArg Host.Outcome.next (datapath_xor (s.fieldsR rd rs rt) s)

theorem exec_slt (rd rs rt : Reg) (s : State) :
    exec (.slt rd rs rt) s = .next (s.setReg rd (if (s.reg rs).toInt < (s.reg rt).toInt then 1 else 0)) :=
  congrArg Host.Outcome.next (datapath_slt (s.fieldsR rd rs rt) s)

theorem exec_subi (rt rs : Reg) (k : Int) (s : State) :
    exec (.subi rt rs k) s = .next (s.setReg rt (s.reg rs - immWord k)) :=
  congrArg Host.Outcome.next (datapath_subi (s.fieldsI rt rs k) s)

/-! ## The rules: Fetch advances `pc` and keeps the registers, so the step is the law of `exec` there -/

/-- Settles O29, by the law of `exec` and the decoder's reading of the word. -/
theorem addFollowsItsRule : Obligations.AddFollowsItsRule := by
  refine ⟨exec_add, fun rd rs rt ignored s h => ?_, rfl⟩
  exact (h.step_eq_exec (decodeWord_layoutR .add .add rfl (fun _ => rfl) rd rs rt ignored)).trans (exec_add rd rs rt _)

/-- Settles O30, by the law of `exec` and the decoder's reading of the word. -/
theorem orFollowsItsRule : Obligations.OrFollowsItsRule := by
  refine ⟨exec_or, fun rd rs rt ignored s h => ?_, rfl⟩
  exact (h.step_eq_exec (decodeWord_layoutR .or .or rfl (fun _ => rfl) rd rs rt ignored)).trans (exec_or rd rs rt _)

/-- Settles O31, by the law of `exec` and the decoder's reading of the word. -/
theorem xorFollowsItsRule : Obligations.XorFollowsItsRule := by
  refine ⟨exec_xor, fun rd rs rt ignored s h => ?_, rfl⟩
  exact (h.step_eq_exec (decodeWord_layoutR .xor .xor rfl (fun _ => rfl) rd rs rt ignored)).trans (exec_xor rd rs rt _)

/-- Settles O32, by the law of `exec` and the decoder's reading of the word. -/
theorem sltFollowsItsRule : Obligations.SltFollowsItsRule := by
  refine ⟨exec_slt, fun rd rs rt ignored s h => ?_, rfl⟩
  exact (h.step_eq_exec (decodeWord_layoutR .slt .slt rfl (fun _ => rfl) rd rs rt ignored)).trans (exec_slt rd rs rt _)

/-- Settles O33: the immediate word of the decoded K is the sign extension of the field (30_encoding.md R54). -/
theorem subiFollowsItsRule : Obligations.SubiFollowsItsRule := by
  refine ⟨exec_subi, fun rt rs imm s h => ?_, rfl⟩
  rw [← immWord_toInt]
  exact (h.step_eq_exec (decodeWord_layoutI .subi .subi rfl (fun _ => rfl) rt rs imm)).trans (exec_subi rt rs _ _)

end Sys2Proof.Machine
end

section
/-! PROOFS. The load and the store (43_load_store.md R130, R131): what `exec` of each answers at an address in range and
out of range, and the step on every word of its encoding. -/
namespace Sys2Proof.Machine

/-- An address names no cell when it is negative or at least DMEM_WORDS (20_memory.md R36). -/
theorem State.dataInRange_eq_false_iff (s : State) (a : Int) :
    s.dataInRange a = false ↔ a < 0 ∨ (s.params.dmemWords : Int) ≤ a := by
  rw [← Bool.not_eq_true, State.dataInRange_iff, not_and_or, Int.not_le, Int.not_lt]

/-! ## `exec` by the range of the address; `exec_sw_inRange` is among the laws of register 0 -/

theorem exec_lw_inRange {rt rs : Reg} {k : Int} {s : State} (h : s.dataInRange (s.effectiveAddress rs k) = true) :
    exec (.lw rt rs k) s = .next (s.setReg rt (s.cell (s.effectiveAddress rs k).toNat)) :=
  congrArg Host.Outcome.next (datapath_lw_inRange (f := s.fieldsI rt rs k) h)

theorem exec_lw_outOfRange {rt rs : Reg} {k : Int} {s : State} (h : s.dataInRange (s.effectiveAddress rs k) = false) :
    exec (.lw rt rs k) s = .next (s.raise (.dataAddressOutOfRange (s.effectiveAddress rs k))) :=
  congrArg Host.Outcome.next (datapath_lw_outOfRange (f := s.fieldsI rt rs k) h)

theorem exec_sw_outOfRange {rt rs : Reg} {k : Int} {s : State} (h : s.dataInRange (s.effectiveAddress rs k) = false) :
    exec (.sw rt rs k) s = .next (s.raise (.dataAddressOutOfRange (s.effectiveAddress rs k))) :=
  congrArg Host.Outcome.next (datapath_sw_outOfRange (f := s.fieldsI rt rs k) h)

/-- `lw` on every operand, the range written as bounds. -/
theorem exec_lw (rt rs : Reg) (k : Int) (s : State) :
    let a := s.effectiveAddress rs k
    (0 ≤ a → a < s.params.dmemWords → exec (.lw rt rs k) s = .next (s.setReg rt (s.cell a.toNat))) ∧
    (a < 0 ∨ s.params.dmemWords ≤ a → exec (.lw rt rs k) s = .next (s.raise (.dataAddressOutOfRange a))) :=
  ⟨fun hlo hhi => exec_lw_inRange ((s.dataInRange_iff _).2 ⟨hlo, hhi⟩),
    fun hout => exec_lw_outOfRange ((s.dataInRange_eq_false_iff _).2 hout)⟩

/-- `sw` on every operand, the range written as bounds. -/
theorem exec_sw (rt rs : Reg) (k : Int) (s : State) :
    let a := s.effectiveAddress rs k
    (0 ≤ a → a < s.params.dmemWords → exec (.sw rt rs k) s = .next (s.setCell a.toNat (s.reg rt))) ∧
    (a < 0 ∨ s.params.dmemWords ≤ a → exec (.sw rt rs k) s = .next (s.raise (.dataAddressOutOfRange a))) :=
  ⟨fun hlo hhi => exec_sw_inRange ((s.dataInRange_iff _).2 ⟨hlo, hhi⟩),
    fun hout => exec_sw_outOfRange ((s.dataInRange_eq_false_iff _).2 hout)⟩

/-! ## The rules: Fetch keeps the registers, the cells and the capacities, so the address and its range are the same
after it, and the step is the law of `exec` there -/

/-- Settles O34: the immediate word of the decoded K is the sign extension of the field (30_encoding.md R54). -/
theorem lwFollowsItsRule : Obligations.LwFollowsItsRule := by
  refine ⟨exec_lw, fun rt rs imm s h => ?_, rfl⟩
  rw [← immWord_toInt, h.step_eq_exec (decodeWord_layoutI .lw .lw rfl (fun _ => rfl) rt rs imm)]
  exact exec_lw rt rs imm.toInt (s.setPc (s.pc + 1))

/-- Settles O35: the immediate word of the decoded K is the sign extension of the field (30_encoding.md R54). -/
theorem swFollowsItsRule : Obligations.SwFollowsItsRule := by
  refine ⟨exec_sw, fun rt rs imm s h => ?_, rfl⟩
  rw [← immWord_toInt, h.step_eq_exec (decodeWord_layoutI .sw .sw rfl (fun _ => rfl) rt rs imm)]
  exact exec_sw rt rs imm.toInt (s.setPc (s.pc + 1))

end Sys2Proof.Machine
end

section
/-! PROOFS. The control transfers (44_control_transfer.md R140 to R142): what `exec` of each answers, and the step on
every word of its encoding. -/
namespace Sys2Proof.Machine

/-! ## J-format words -/

/-- The fields a J-format word names (30_encoding.md R51, R53), whatever its bits 25:16 are (R59). -/
theorem layoutJ_fields (opcode : BitVec 6) (ignored : BitVec 10) (imm : BitVec 16) :
    (fieldsOf (layoutJ opcode ignored imm)).opcode = opcode ∧
      (fieldsOf (layoutJ opcode ignored imm)).imm = imm.toInt := by
  simp (disch := decide) only [fieldsOf, layoutJ, BitVec.extractLsb'_append_eq_of_le, Nat.reduceSub,
    BitVec.extractLsb'_eq_self, BitVec.extractLsb'_append_eq_right, and_self]

/-- `mk` is the constructor of the J-format operation `m`, applied to the K its words name (R52, R53). -/
theorem decodeWord_layoutJ (m : Op) (mk : Int → Instr) (hfunc : m.func = none)
    (hmk : ∀ f : Fields, f.instr m = mk f.imm) (ignored : BitVec 10) (imm : BitVec 16) :
    decodeWord (layoutJ m.opcode ignored imm) = .ok (mk imm.toInt) := by
  obtain ⟨hop, himm⟩ := layoutJ_fields m.opcode ignored imm
  have hopOf : opOf (layoutJ m.opcode ignored imm) = .ok m := recognise_eq_ok_iff.2 ⟨hop, .inl hfunc⟩
  rw [decodeWord_of_opOf hopOf, hmk, himm]

/-! ## `exec` on every operand -/

theorem exec_bge_taken {rs rt : Reg} {s : State} (k : Int) (h : 0 ≤ (s.reg rs - s.reg rt).toInt) :
    exec (.bge rs rt k) s = .next (s.setPc (s.pc + immWord k)) :=
  congrArg Host.Outcome.next (datapath_bge_taken (f := s.fieldsI rt rs k) h)

theorem exec_bge_notTaken {rs rt : Reg} {s : State} (k : Int) (h : (s.reg rs - s.reg rt).toInt < 0) :
    exec (.bge rs rt k) s = .next s :=
  congrArg Host.Outcome.next (datapath_bge_notTaken (f := s.fieldsI rt rs k) h)

theorem exec_j (k : Int) (s : State) : exec (.j k) s = .next (s.setPc (immWord k)) :=
  congrArg Host.Outcome.next (datapath_j (s.fieldsJ k) s)

theorem exec_jal (k : Int) (s : State) : exec (.jal k) s = .next ((s.setReg linkReg s.pc).setPc (immWord k)) :=
  congrArg Host.Outcome.next (datapath_jal (s.fieldsJ k) s)

/-! ## The rules: a transfer replaces the `pc` that Fetch advanced, so of Fetch only `pc0 + 1` is seen, as the base of a
`bge` and as the link of a `jal`; the immediate word of the decoded K is the sign extension of the field (R54) -/

/-- Settles O36: Fetch keeps the registers, so the difference tested after it is the one before it. -/
theorem bgeFollowsItsRule : Obligations.BgeFollowsItsRule := by
  refine ⟨fun rs rt k s => ⟨exec_bge_taken k, exec_bge_notTaken k⟩, fun rs rt imm s h => ?_, rfl⟩
  have hdecode : decodeWord (layoutI Op.bge.opcode rs rt imm) = .ok (.bge rs rt imm.toInt) :=
    decodeWord_layoutI .bge (fun rt rs k => .bge rs rt k) rfl (fun _ => rfl) rt rs imm
  rw [← immWord_toInt, h.step_eq_exec hdecode]
  exact ⟨exec_bge_taken (s := s.setPc (s.pc + 1)) imm.toInt, exec_bge_notTaken (s := s.setPc (s.pc + 1)) imm.toInt⟩

/-- Settles O37: the target is the immediate word alone, so nothing is left of the `pc` that Fetch advanced. -/
theorem jumpFollowsItsRule : Obligations.JumpFollowsItsRule := by
  refine ⟨exec_j, fun ignored imm s h => ?_, rfl⟩
  rw [← immWord_toInt, h.step_eq_exec (decodeWord_layoutJ .j .j rfl (fun _ => rfl) ignored imm)]
  exact exec_j imm.toInt (s.setPc (s.pc + 1))

/-- Settles O38: the link is the `pc` that Fetch leaves, and the target then replaces it. -/
theorem jalFollowsItsRule : Obligations.JalFollowsItsRule := by
  refine ⟨exec_jal, fun ignored imm s h => ?_, rfl⟩
  rw [← immWord_toInt, h.step_eq_exec (decodeWord_layoutJ .jal .jal rfl (fun _ => rfl) ignored imm)]
  exact exec_jal imm.toInt (s.setPc (s.pc + 1))

end Sys2Proof.Machine
end

section
/-! PROOFS. The invalid instruction (60_exceptions.md R152): Decode refuses the word Fetch read, and the step ends. -/
namespace Sys2Proof.Machine

/-- A word the decoder refuses raises on the state Fetch leaves, and no later stage is reached (R156, R157). -/
theorem State.AboutToExecute.step_eq_raise {s : State} {w : Word} {e : DecodeError} (h : s.AboutToExecute w)
    (hdecode : decodeWord w = .error e) :
    step s = .next ((s.setPc (s.pc + 1)).raise (.invalidInstruction s.pc.toInt w)) := by
  rw [step_running h.running, State.fetch_nonneg h.nonneg]
  simp only [h.word, hdecode, Fetched.raiseInvalid]

/-- Settles O11: a word that passes no row's test is refused by the decoder (O13), so Decode raises on the state Fetch
leaves; at or beyond N the machine is halted, and its step is the state itself. -/
theorem unrecognisedWordRaises : Obligations.UnrecognisedWordRaises := by
  refine ⟨fun s w h hnone => ?_, fun s hfault hend t hstep => ?_⟩
  · obtain ⟨-, hrefused, -⟩ := recognitionIsMaskAndMatch
    obtain ⟨e, -, hdecode⟩ := hrefused w hnone
    exact h.step_eq_raise hdecode
  · rw [step_halted (State.status_halted_iff.2 ⟨hfault, hend⟩)] at hstep
    injection hstep with hst
    exact hst ▸ hfault

end Sys2Proof.Machine
end

section
/-! PROOFS. Decoder and encoder as inverses (30_encoding.md R53, R56, R59, R64), and the words without a meaning (R60). -/
namespace Sys2Proof

open Machine (layoutR layoutJ decodeWord_layoutR decodeWord_layoutJ)

/-! ## What the decoder answers -/

/-- The decoder answers the instruction of the word's operation and fields, and only that. -/
theorem decodeWord_eq_ok_iff {w : Word} {i : Instr} :
    decodeWord w = .ok i ↔ ∃ m, opOf w = .ok m ∧ i = (fieldsOf w).instr m := by
  cases h : opOf w with
  | ok m => simp [decodeWord_of_opOf h, eq_comm]
  | error e => simp [decodeWord_of_opOf_error h]

/-- A word is invalid when it stands in no row of ENC. -/
theorem decodeWord_error_iff {w : Word} :
    (∃ e, decodeWord w = .error e) ↔
      ∀ m : Op, ¬((fieldsOf w).opcode = m.opcode ∧ (m.func = none ∨ m.func = some (fieldsOf w).func)) := by
  have hrow : (∀ m : Op, ¬((fieldsOf w).opcode = m.opcode ∧ (m.func = none ∨ m.func = some (fieldsOf w).func))) ↔
      ∀ m, opOf w ≠ .ok m := forall_congr' fun m => not_congr recognise_eq_ok_iff.symm
  rw [hrow]
  cases h : opOf w with
  | ok m => simp [decodeWord_of_opOf h]
  | error e => simp [decodeWord_of_opOf_error h]

@[simp] theorem op_instr (f : Fields) (m : Op) : (f.instr m).op = m := by
  cases m <;> rfl

/-- The decoder gives no K outside its field (R51). -/
theorem wf_instr {f : Fields} (h : immFits f.imm = true) (m : Op) : (f.instr m).wf = true := by
  cases m with
  | add | or | xor | slt => rfl
  | subi | lw | sw | bge | j | jal => exact h

theorem wf_of_decodeWord {w : Word} {i : Instr} (h : decodeWord w = .ok i) : i.wf = true := by
  obtain ⟨m, -, rfl⟩ := decodeWord_eq_ok_iff.1 h
  exact wf_instr (immFits_fieldsOf w) m

/-! ## Encode after decode: each field put back in its place -/

/-- A field cut from a word and put back is the word masked to the field's bits. -/
theorem placed_extractLsb' (w : Word) (at_ n : Nat) :
    placed (w.extractLsb' at_ n) at_ = w &&& placed (BitVec.allOnes n) at_ := by
  ext i hi
  simp only [placed, BitVec.getElem_shiftLeft, BitVec.getElem_and]
  by_cases h : i < at_
  · simp [h]
  · simp [h, Nat.add_sub_cancel' (Nat.le_of_not_lt h), BitVec.getLsbD_eq_getElem hi, Bool.and_comm]

theorem ofNat_regOfBits (b : BitVec 5) : BitVec.ofNat 5 (regOfBits b).val = b :=
  BitVec.eq_of_toNat_eq (Nat.mod_eq_of_lt b.isLt)

theorem ofInt_imm_fieldsOf (w : Word) : BitVec.ofInt 16 (fieldsOf w).imm = w.extractLsb' 0 16 :=
  BitVec.ofInt_toInt

/-- R64, first form, of a word of the operation `m`: all but bits 10:6. -/
theorem encodeR_fieldsOf {w : Word} {m : Op} (hop : (fieldsOf w).opcode = m.opcode)
    (hfunc : m.func = some (fieldsOf w).func) :
    encodeR m (fieldsOf w).rd (fieldsOf w).rs (fieldsOf w).rt = w &&& 0xFFFFF83F#32 := by
  rw [encodeR, ← hop, hfunc]
  simp only [fieldsOf, ofNat_regOfBits, Option.getD_some, placed_extractLsb', ← BitVec.and_or_distrib_left]
  rfl

/-- R64, second form, of a word of the operation `m`: the whole word. -/
theorem encodeI_fieldsOf {w : Word} {m : Op} (hop : (fieldsOf w).opcode = m.opcode) :
    encodeI m (fieldsOf w).rt (fieldsOf w).rs (fieldsOf w).imm = w &&& BitVec.allOnes 32 := by
  rw [encodeI, ← hop, ofInt_imm_fieldsOf]
  simp only [fieldsOf, ofNat_regOfBits, placed_extractLsb', ← BitVec.and_or_distrib_left]
  rfl

/-- R64, third form, of a word of the operation `m`: all but bits 25:16. -/
theorem encodeJ_fieldsOf {w : Word} {m : Op} (hop : (fieldsOf w).opcode = m.opcode) :
    encodeJ m (fieldsOf w).imm = w &&& 0xFC00FFFF#32 := by
  rw [encodeJ, ← hop, ofInt_imm_fieldsOf]
  simp only [fieldsOf, placed_extractLsb', ← BitVec.and_or_distrib_left]
  rfl

/-- The encoder, on the instruction an operation makes of a word of its own row, by format. -/
theorem encode_instr_fieldsOf {w : Word} {m : Op} (hop : (fieldsOf w).opcode = m.opcode)
    (hfunc : m.func = none ∨ m.func = some (fieldsOf w).func) :
    encode ((fieldsOf w).instr m) = w &&& m.meaningfulBits := by
  cases m with
  | add | or | xor | slt => exact encodeR_fieldsOf hop (hfunc.resolve_left (Option.some_ne_none _))
  | subi | lw | sw | bge => exact encodeI_fieldsOf hop
  | j | jal => exact encodeJ_fieldsOf hop

/-- Settles O17, by the round trip of each instruction. -/
theorem decodeReadsBackEncode : Obligations.DecodeReadsBackEncode := by
  intro i
  cases i with
  | add rd rs rt => exact Laws.RoundTrip.add rd rs rt
  | or rd rs rt => exact Laws.RoundTrip.or rd rs rt
  | xor rd rs rt => exact Laws.RoundTrip.xor rd rs rt
  | slt rd rs rt => exact Laws.RoundTrip.slt rd rs rt
  | subi rt rs k => exact Laws.RoundTrip.subi rt rs k
  | lw rt rs k => exact Laws.RoundTrip.lw rt rs k
  | sw rt rs k => exact Laws.RoundTrip.sw rt rs k
  | bge rs rt k => exact Laws.RoundTrip.bge rs rt k
  | j k => exact Laws.RoundTrip.j k
  | jal k => exact Laws.RoundTrip.jal k

/-- Settles O18: the word stands in the row of its operation, and each field the encoder places was cut from the same
place. -/
theorem encodeRebuildsDecodedWord : Obligations.EncodeRebuildsDecodedWord := by
  intro w i h
  obtain ⟨m, hm, rfl⟩ := decodeWord_eq_ok_iff.1 h
  obtain ⟨hop, hfunc⟩ := recognise_eq_ok_iff.1 hm
  exact ⟨wf_of_decodeWord h, by rw [op_instr, encode_instr_fieldsOf hop hfunc]⟩

/-! ## The words without a meaning, and the bits without one -/

/-- The column `opcode` of ENC, as a list. -/
theorem mem_opcodes_iff {opcode : BitVec 6} :
    opcode ∈ [0x00#6, 0x02#6, 0x03#6, 0x18#6, 0x19#6, 0x23#6, 0x2B#6] ↔ ∃ m : Op, opcode = m.opcode := by
  constructor
  · simp only [List.mem_cons, List.not_mem_nil, or_false]
    rintro (h | h | h | h | h | h | h)
    exacts [⟨.add, h⟩, ⟨.j, h⟩, ⟨.jal, h⟩, ⟨.subi, h⟩, ⟨.bge, h⟩, ⟨.lw, h⟩, ⟨.sw, h⟩]
  · rintro ⟨m, rfl⟩
    cases m <;> decide

/-- The column `func` of ENC, as a list. -/
theorem mem_funcs_iff {func : BitVec 6} :
    func ∈ [0x20#6, 0x25#6, 0x26#6, 0x2A#6] ↔ ∃ m : Op, m.func = some func := by
  constructor
  · simp only [List.mem_cons, List.not_mem_nil, or_false]
    rintro (rfl | rfl | rfl | rfl)
    exacts [⟨.add, rfl⟩, ⟨.or, rfl⟩, ⟨.xor, rfl⟩, ⟨.slt, rfl⟩]
  · rintro ⟨m, hm⟩
    cases m <;> cases hm <;> decide

/-- The rows of ENC in which `func` is examined are those of opcode 0. -/
theorem Op.opcode_eq_zero_iff (m : Op) : m.opcode = 0x00#6 ↔ m.func ≠ none := by
  cases m <;> decide

/-- Settles O15: the two lists are the columns of ENC, and a word is invalid when it stands in no row. -/
theorem invalidWordsAreThoseListed : Obligations.InvalidWordsAreThoseListed := by
  refine ⟨fun w => ?_, by decide, by decide⟩
  rw [decodeWord_error_iff, mem_opcodes_iff, mem_funcs_iff]
  constructor
  · intro hrow
    by_cases hzero : (fieldsOf w).opcode = 0x00#6
    · refine .inr ⟨hzero, fun ⟨m, hm⟩ => hrow m ⟨?_, .inr hm⟩⟩
      exact hzero.trans (m.opcode_eq_zero_iff.2 (hm ▸ Option.some_ne_none _)).symm
    · refine .inl fun ⟨m, hm⟩ => hrow m ⟨hm, .inl ?_⟩
      exact Decidable.not_not.1 fun hfunc => hzero (hm.trans (m.opcode_eq_zero_iff.2 hfunc))
  · rintro (hop | ⟨hzero, hnofunc⟩) m ⟨hm, hfunc⟩
    · exact hop ⟨m, hm⟩
    · exact hnofunc ⟨m, hfunc.resolve_left (m.opcode_eq_zero_iff.1 (hm.symm.trans hzero))⟩

/-- An R-format operation makes its instruction of the three register fields alone (R52). -/
theorem instr_of_func {m : Op} {func : BitVec 6} (h : m.func = some func) :
    ∃ mk : Reg → Reg → Reg → Instr, ∀ f : Fields, f.instr m = mk f.rd f.rs f.rt := by
  cases m with
  | add => exact ⟨.add, fun _ => rfl⟩
  | or => exact ⟨.or, fun _ => rfl⟩
  | xor => exact ⟨.xor, fun _ => rfl⟩
  | slt => exact ⟨.slt, fun _ => rfl⟩
  | subi | lw | sw | bge | j | jal => cases h

/-- Settles O16: an R or J layout is decoded without its ignored bits; an I-format instruction's encoding is, by O18, the
whole of the word it was decoded from. -/
theorem ignoredBitsChangeNothing : Obligations.IgnoredBitsChangeNothing := by
  refine ⟨fun func rs rt rd b c hfunc => ?_, fun opcode b c imm hop => ?_, fun v w i hformat hv hw => ?_⟩
  · obtain ⟨m, hm⟩ := mem_funcs_iff.1 hfunc
    obtain ⟨mk, hmk⟩ := instr_of_func hm
    have hop : m.opcode = 0 := m.opcode_eq_zero_iff.2 (hm ▸ Option.some_ne_none _)
    have hread : ∀ ignored, decodeWord (layoutR 0 rs rt rd ignored func) = .ok (mk rd rs rt) := fun ignored =>
      hop ▸ decodeWord_layoutR m mk hm hmk rd rs rt ignored
    exact (hread b).trans (hread c).symm
  · rcases List.mem_pair.1 hop with rfl | rfl
    · exact (decodeWord_layoutJ .j .j rfl (fun _ => rfl) b imm).trans
        (decodeWord_layoutJ .j .j rfl (fun _ => rfl) c imm).symm
    · exact (decodeWord_layoutJ .jal .jal rfl (fun _ => rfl) b imm).trans
        (decodeWord_layoutJ .jal .jal rfl (fun _ => rfl) c imm).symm
  · have hbits : i.op.meaningfulBits = BitVec.allOnes 32 := by rw [Op.meaningfulBits, hformat]
    have hself : ∀ u : Word, decodeWord u = .ok i → encode i = u := fun u hu => by
      rw [(encodeRebuildsDecodedWord u i hu).2, hbits, BitVec.and_allOnes]
    exact (hself v hv).symm.trans (hself w hw)

/-- Settles O19: each of the eight words is a value to decode. -/
theorem wordsOfTheSpecDecode : Obligations.WordsOfTheSpecDecode := by
  unfold Obligations.WordsOfTheSpecDecode
  decide

end Sys2Proof
end

section
/-! PROOFS. The frame of `exec` (40_cycle_and_decode.md R90): which instructions can write a register, a cell, `pc` or the
fault register, each said once and read off the case list of `exec`. -/
namespace Sys2Proof.Machine

variable {i : Instr} {s t : State}

/-- No register but the destination changes. -/
theorem exec_reg (h : exec i s = .next t) {r : Reg} (hr : destinationOf i ≠ some r) : t.reg r = s.reg r := by
  obtain ⟨q, v, hq, -, rfl⟩ | ⟨_, _, _, -, -, rfl⟩ | ⟨_, _, _, -, -, rfl⟩ |
    ⟨_, _, _, -, ⟨-, rfl⟩ | ⟨-, rfl⟩⟩ | ⟨_, -, rfl⟩ | ⟨_, rfl, rfl⟩ := exec_inversion h
  · exact State.reg_setReg_other s q v fun hrq => hr (hrq ▸ hq)
  · rfl
  · rfl
  · rfl
  · rfl
  · rfl
  · exact State.reg_setReg_other s linkReg s.pc fun hrq => hr (congrArg some hrq.symm)

/-- An instruction that is no store leaves the Data Memory as it is. -/
theorem exec_dm (h : exec i s = .next t) (hstore : storeAddressOf i s = none) : t.dm = s.dm := by
  obtain ⟨_, _, -, -, rfl⟩ | ⟨_, _, _, rfl, -, -⟩ | ⟨_, _, _, -, -, rfl⟩ |
    ⟨_, _, _, -, ⟨-, rfl⟩ | ⟨-, rfl⟩⟩ | ⟨_, -, rfl⟩ | ⟨_, -, rfl⟩ := exec_inversion h
  · rfl
  · cases hstore
  all_goals rfl

/-- No cell but the one stored to changes. -/
theorem exec_cell (hwf : Memory.wf s.dm = true) (h : exec i s = .next t) {b : Nat}
    (hb : storeAddressOf i s ≠ some (b : Int)) : t.cell b = s.cell b := by
  obtain ⟨_, _, -, -, rfl⟩ | ⟨rt, rs, k, rfl, hin, rfl⟩ | ⟨_, _, _, -, -, rfl⟩ |
    ⟨_, _, _, -, ⟨-, rfl⟩ | ⟨-, rfl⟩⟩ | ⟨_, -, rfl⟩ | ⟨_, -, rfl⟩ := exec_inversion h
  · rfl
  · have hnonneg : 0 ≤ s.effectiveAddress rs k := ((s.dataInRange_iff _).1 hin).1
    refine State.cell_setCell_other hwf (fun hba => hb ?_) _
    rw [hba, Int.toNat_of_nonneg hnonneg]
    rfl
  all_goals rfl

/-- The fault register stays, or a `lw` or `sw` out of range raises and does nothing else. -/
theorem exec_fault (h : exec i s = .next t) :
    t.fault = s.fault ∨
      ∃ rt rs k, (i = .lw rt rs k ∨ i = .sw rt rs k) ∧ s.dataInRange (s.effectiveAddress rs k) = false ∧
        t = s.raise (.dataAddressOutOfRange (s.effectiveAddress rs k)) := by
  obtain ⟨_, _, -, -, rfl⟩ | ⟨_, _, _, -, -, rfl⟩ | hraise |
    ⟨_, _, _, -, ⟨-, rfl⟩ | ⟨-, rfl⟩⟩ | ⟨_, -, rfl⟩ | ⟨_, -, rfl⟩ := exec_inversion h
  · exact .inl rfl
  · exact .inl rfl
  · exact .inr hraise
  all_goals exact .inl rfl

/-- A control transfer raises nothing in its own step (44_control_transfer.md R144). -/
theorem exec_fault_of_transfer (h : exec i s = .next t) (hi : isTransfer i = true) : t.fault = s.fault := by
  obtain hkeep | ⟨_, _, _, rfl | rfl, -⟩ := exec_fault h
  · exact hkeep
  · cases hi
  · cases hi

/-- What an instruction makes of the `pc` Fetch has advanced; a `bge` that is taken adds its offset to it. -/
def pcAfter (i : Instr) (pc : Word) : Word :=
  match i with
  | .j k | .jal k => immWord k
  | .add _ _ _ | .or _ _ _ | .xor _ _ _ | .slt _ _ _ | .subi _ _ _ | .lw _ _ _ | .sw _ _ _ | .bge _ _ _ => pc

theorem pcAfter_of_not_transfer (hi : isTransfer i = false) (pc : Word) : pcAfter i pc = pc := by
  cases i with
  | j k | jal k => cases hi
  | add | or | xor | slt | subi | lw | sw | bge => rfl

/-- How each instruction leaves `pc` (R140 to R143). -/
theorem exec_pc (h : exec i s = .next t) :
    (∃ rs rt k, i = .bge rs rt k ∧ 0 ≤ (s.reg rs - s.reg rt).toInt ∧ t.pc = s.pc + immWord k) ∨
      ((∀ rs rt k, i = .bge rs rt k → (s.reg rs - s.reg rt).toInt < 0) ∧ t.pc = pcAfter i s.pc) := by
  obtain ⟨_, _, -, hi, rfl⟩ | ⟨_, _, _, rfl, -, rfl⟩ | ⟨_, _, _, rfl | rfl, -, rfl⟩ |
    ⟨rs, rt, k, rfl, ⟨htaken, rfl⟩ | ⟨hnot, rfl⟩⟩ | ⟨_, rfl, rfl⟩ | ⟨_, rfl, rfl⟩ := exec_inversion h
  · refine .inr ⟨fun rs rt k hbge => ?_, (pcAfter_of_not_transfer hi s.pc).symm⟩
    rw [hbge] at hi
    cases hi
  · exact .inr ⟨nofun, rfl⟩
  · exact .inr ⟨nofun, rfl⟩
  · exact .inr ⟨nofun, rfl⟩
  · exact .inl ⟨rs, rt, k, rfl, htaken, rfl⟩
  · refine .inr ⟨fun rs' rt' k' hbge => ?_, rfl⟩
    cases hbge
    exact hnot
  · exact .inr ⟨nofun, rfl⟩
  · exact .inr ⟨nofun, rfl⟩

theorem exec_pc_of_not_transfer (h : exec i s = .next t) (hi : isTransfer i = false) : t.pc = s.pc := by
  obtain ⟨_, _, _, rfl, -⟩ | ⟨-, hpc⟩ := exec_pc h
  · cases hi
  · exact hpc.trans (pcAfter_of_not_transfer hi s.pc)

/-! ## The frame of each family -/

/-- Settles O43: the six are no stores and no transfers, they have one destination, and of them a `lw` alone can raise. -/
theorem registerWritersFrame : Obligations.RegisterWritersFrame := by
  intro rd rs rt k i s t hi h
  have hprog : s.SameProgram t := exec_sameProgram h
  obtain ⟨hdest, hstore, htransfer, hlw, hsw⟩ : destinationOf i = some rd ∧ storeAddressOf i s = none ∧
      isTransfer i = false ∧ (∀ rt' rs' k', i = .lw rt' rs' k' → rt' = rd ∧ rs' = rs ∧ k' = k) ∧
        ∀ rt' rs' k', i ≠ .sw rt' rs' k' := by
    rcases hi with rfl | rfl | rfl | rfl | rfl | rfl <;> simp [destinationOf, storeAddressOf, isTransfer, eq_comm]
  refine ⟨fun r hr => exec_reg h fun hr' => hr ?_, fun a => ?_, hprog.wordAt, exec_pc_of_not_transfer h htransfer,
    hprog.n, hprog.params, ?_⟩
  · exact (Option.some.inj (hdest.symm.trans hr')).symm
  · exact congrArg (Memory.read · a) (exec_dm h hstore)
  · obtain hkeep | ⟨rt', rs', k', hlw' | hsw', -, rfl⟩ := exec_fault h
    · exact .inl hkeep
    · obtain ⟨rfl, rfl, rfl⟩ := hlw rt' rs' k' hlw'
      exact .inr ⟨hlw', rfl, rfl⟩
    · exact absurd hsw' (hsw rt' rs' k')

/-- Settles O44: a `sw` has no destination and is no transfer; in range it stores, out of range it raises. -/
theorem storeFrame : Obligations.StoreFrame := by
  intro rt rs k s t hwf h
  have hprog : s.SameProgram t := exec_sameProgram h
  refine ⟨fun r => exec_reg h nofun, hprog.wordAt, exec_pc_of_not_transfer h rfl, hprog.n, hprog.params,
    fun b hb => exec_cell hwf h fun hb' => hb (Option.some.inj hb').symm, fun hin => ?_, fun hout => ?_⟩
  · rw [exec_sw_inRange hin] at h
    injection h with h
    subst h
    exact ⟨State.cell_setCell_same hwf _ _, rfl⟩
  · rw [exec_sw_outOfRange hout] at h
    injection h with h
    subst h
    exact ⟨fun _ => rfl, rfl⟩

/-- Settles O45: a transfer stores nothing and raises nothing, and a `jal` alone has a destination. -/
theorem transferFrame : Obligations.TransferFrame := by
  intro i s t hi h
  have hprog : s.SameProgram t := exec_sameProgram h
  obtain ⟨hstore, hdest⟩ : storeAddressOf i s = none ∧
      (destinationOf i = none ∨ destinationOf i = some 31 ∧ ∃ k, i = .jal k) := by
    cases i with
    | bge | j => exact ⟨rfl, .inl rfl⟩
    | jal k => exact ⟨rfl, .inr ⟨rfl, k, rfl⟩⟩
    | add | or | xor | slt | subi | lw | sw => cases hi
  refine ⟨fun r hr => exec_reg h fun hr' => ?_, fun a => congrArg (Memory.read · a) (exec_dm h hstore),
    hprog.wordAt, hprog.n, hprog.params, exec_fault_of_transfer h hi⟩
  rcases hdest with hnone | ⟨h31, k, hjal⟩
  · cases hnone.symm.trans hr'
  · rcases hr with hr | hr
    · exact hr (Option.some.inj (h31.symm.trans hr')).symm
    · exact hr k hjal

end Sys2Proof.Machine
end

section
/-! PROOFS. The step (40_cycle_and_decode.md R70, R93): Fetch out of range (20_memory.md R37), the datapath of the fetched
word, what a step can change (R90), and the cause no step records (60_exceptions.md R153). -/
namespace Sys2Proof.Machine

/-- Fetch of a negative `pc` raises, and no later stage is reached (R37, R156). -/
theorem step_negative {s : State} (hrun : s.status = .running) (hneg : s.pc.toInt < 0) :
    step s = .next (s.raise (.fetchAddressOutOfRange s.pc.toInt)) := by
  rw [step_running hrun, State.fetch_negative hneg]

/-- Settles O9, by the step of a machine about to execute a valid word. -/
theorem stepRunsDecodedInstruction : Obligations.StepRunsDecodedInstruction :=
  fun _ _ _ h hdecode => h.step_eq_exec hdecode

/-- Settles O10: a running machine has `pc` < N, and a machine past the end is halted. -/
theorem negativeFetchRaises : Obligations.NegativeFetchRaises := by
  refine fun s => ⟨step_negative, fun hcount hrun _ => ?_, fun hfault hend t hstep => ?_⟩
  · obtain ⟨-, hpc⟩ := State.status_running_iff.1 hrun
    omega
  · rw [step_halted (State.status_halted_iff.2 ⟨hfault, hend⟩)] at hstep
    injection hstep with hst
    exact hst ▸ ⟨hfault, rfl⟩

/-- The fields an instruction does not name are those of the word in execution (log entry 11), so `exec` of what an
operation makes of that word's fields is the datapath on these. -/
theorem exec_instr_fetched (m : Op) (s : State) :
    exec ((fieldsOf s.fetched).instr m) s = .next (datapath m (fieldsOf s.fetched) s) := by
  cases m <;> rfl

/-- Settles O20: the word in execution after Fetch is the word fetched. -/
theorem stepIsTheDatapathOfTheWord : Obligations.StepIsTheDatapathOfTheWord := by
  intro s w m h hop
  have hfetched : (s.setPc (s.pc + 1)).fetched = w := (State.fetched_after s).trans h.word
  rw [h.step_eq_exec (decodeWord_of_opOf hop), ← hfetched]
  exact exec_instr_fetched m _

/-- Settles O24: the table gives `jal` the branch kind that the generic register write passes by. -/
theorem writebackPassesJalBy : Obligations.WritebackPassesJalBy := fun _ _ _ _ => rfl

/-- Settles O46: the frame of `exec`, on the state Fetch leaves, which differs from the one before in `pc` alone. -/
theorem stepChangesOnlyWhatItsRuleNames : Obligations.StepChangesOnlyWhatItsRuleNames := by
  intro s t w i hwf hw hdecode hstep
  have hprog : s.SameProgram t := step_sameProgram hstep
  rw [hw.step_eq_exec hdecode] at hstep
  have hstore : storeAddressOf i (s.setPc (s.pc + 1)) = storeAddressOf i s := by cases i <;> rfl
  refine ⟨fun r hr => exec_reg hstep hr, fun b hb => ?_, hprog.im, hprog.n,
    hprog.params, ?_⟩
  · exact exec_cell (s := s.setPc (s.pc + 1)) hwf hstep (hstore ▸ hb)
  · obtain hkeep | ⟨rt, rs, k, hi, -, rfl⟩ := exec_fault hstep
    · exact .inl (hkeep.trans (State.status_running_iff.1 hw.running).1)
    · exact .inr ⟨⟨rt, rs, k, hi⟩, _, rfl⟩

/-- Settles O25: Fetch, Decode and the data accesses record other causes, and every other path leaves the register empty
as it was. -/
theorem noDestinationIsUnreachable : Obligations.NoDestinationIsUnreachable := by
  intro s t p w hstep
  obtain ⟨hnone, ⟨-, rfl⟩ | ⟨-, -, rfl⟩ | ⟨-, -, -, rfl⟩ | ⟨-, -, i, -, hexec⟩⟩ := step_inversion hstep
  · simp [hnone]
  · simp
  · simp
  · obtain hkeep | ⟨_, _, _, -, -, rfl⟩ := exec_fault hexec
    · simp [hkeep, hnone]
    · simp

end Sys2Proof.Machine
end

section
/-! PROOFS. `pc` as a mathematical integer (10_state.md R15, R16), what a target means (44_control_transfer.md R144), and
what can reach `pc` (R143). -/
namespace Sys2Proof.Machine

/-! ## `pc` in a state that meets the invariant -/

/-- An addition whose mathematical result fits in 32 bits does not wrap. -/
theorem toInt_add_of_fits {a b : Word} (hlo : -(2 ^ 31) ≤ a.toInt + b.toInt) (hhi : a.toInt + b.toInt < 2 ^ 31) :
    (a + b).toInt = a.toInt + b.toInt := by
  rw [BitVec.toInt_add, Int.bmod_eq_of_le] <;> omega

/-- A machine that fetches has `pc` inside the program, which is inside the capacity R6 allows. -/
theorem State.Inv.pc_of_running {s : State} (hinv : s.Inv) (hrun : s.status = .running) :
    s.pc.toInt < s.n ∧ s.n ≤ 2 ^ 30 := by
  obtain ⟨-, himem, -⟩ := hinv.params
  exact ⟨(State.status_running_iff.1 hrun).2, hinv.count.trans himem⟩

/-- Fetch advances `pc` without a wrap. -/
theorem State.Inv.toInt_pc_succ {s : State} (hinv : s.Inv) (hrun : s.status = .running) :
    (s.pc + 1).toInt = s.pc.toInt + 1 := by
  obtain ⟨hpc, hn⟩ := hinv.pc_of_running hrun
  obtain ⟨hlow, -⟩ := hinv.pc
  have hone : (1 : Word).toInt = 1 := rfl
  exact toInt_add_of_fits (by omega) (by omega)

theorem immFits_iff {k : Int} : immFits k = true ↔ -32768 ≤ k ∧ k ≤ 32767 := decide_eq_true_iff

/-- A taken branch adds its offset to the advanced `pc` without a wrap. -/
theorem State.Inv.toInt_branchTarget {s : State} (hinv : s.Inv) (hrun : s.status = .running) {k : Int}
    (hk : immFits k = true) : (s.pc + 1 + immWord k).toInt = s.pc.toInt + 1 + k := by
  obtain ⟨hpc, hn⟩ := hinv.pc_of_running hrun
  obtain ⟨hlow, -⟩ := hinv.pc
  obtain ⟨hklo, hkhi⟩ := immFits_iff.1 hk
  have hsucc := hinv.toInt_pc_succ hrun
  have himm := toInt_immWord hk
  rw [toInt_add_of_fits, hsucc, himm] <;> omega

/-- `pcAfter` of a well-formed instruction is K after a jump, and the advanced `pc` after any other. -/
theorem pcAfter_cases {i : Instr} (hwf : i.wf = true) (pc : Word) :
    (∃ k, (i = .j k ∨ i = .jal k) ∧ immFits k = true ∧ (pcAfter i pc).toInt = k) ∨
      ((∀ k, ¬(i = .j k ∨ i = .jal k)) ∧ pcAfter i pc = pc) := by
  cases i with
  | j k => exact .inl ⟨k, .inl rfl, hwf, toInt_immWord hwf⟩
  | jal k => exact .inl ⟨k, .inr rfl, hwf, toInt_immWord hwf⟩
  | add | or | xor | slt | subi | lw | sw | bge => exact .inr ⟨by simp, rfl⟩

/-- Settles O51: the three ways an instruction can leave `pc`, each without a wrap. -/
theorem pcAfterEachInstruction : Obligations.PcAfterEachInstruction := by
  intro s t w i hinv hw hdecode hstep
  have hiwf : i.wf = true := wf_of_decodeWord hdecode
  have hsucc := hinv.toInt_pc_succ hw.running
  obtain ⟨hpc, -⟩ := hinv.pc_of_running hw.running
  have hnonneg := hw.nonneg
  rw [hw.step_eq_exec hdecode] at hstep
  obtain ⟨rs, rt, k, rfl, htaken, htarget⟩ | ⟨hnotTaken, hafter⟩ := exec_pc hstep
  · obtain ⟨hklo, hkhi⟩ := immFits_iff.1 hiwf
    have htarget : t.pc.toInt = s.pc.toInt + 1 + k :=
      (congrArg BitVec.toInt htarget).trans (hinv.toInt_branchTarget hw.running hiwf)
    refine ⟨nofun, fun rs' rt' k' hbge => ?_, fun k' hjump => by simp at hjump, by omega, by omega⟩
    cases hbge
    exact ⟨fun _ => htarget, fun hneg => absurd htaken (Int.not_le.2 hneg)⟩
  · have hafter : t.pc = pcAfter i (s.pc + 1) := hafter
    obtain ⟨k, hjump, hk, htarget⟩ | ⟨hnoJump, hstay⟩ := pcAfter_cases hiwf (s.pc + 1)
    · obtain ⟨hklo, hkhi⟩ := immFits_iff.1 hk
      rw [← hafter] at htarget
      refine ⟨fun hi => ?_, fun rs rt k' hbge => ?_, fun k' hjump' => ?_, by omega, by omega⟩
      · rcases hjump with rfl | rfl <;> cases hi
      · rcases hjump with rfl | rfl <;> cases hbge
      · rcases hjump with rfl | rfl <;> simpa [htarget] using hjump'
    · have htarget : t.pc.toInt = s.pc.toInt + 1 := by rw [hafter, hstay, hsucc]
      exact ⟨fun _ => htarget,
        fun rs rt k hbge => ⟨fun htaken => absurd htaken (Int.not_le.2 (hnotTaken rs rt k hbge)), fun _ => htarget⟩,
        fun k hjump => absurd hjump (hnoJump k), by omega, by omega⟩

/-! ## The next step judges the target -/

/-- Settles O52: a transfer leaves the machine unfaulted, so its status at the next step is decided by `pc` alone. -/
theorem targetIsJudgedAtTheNextStep : Obligations.TargetIsJudgedAtTheNextStep := by
  intro s t w i hw hdecode hi hstep
  rw [hw.step_eq_exec hdecode] at hstep
  have hfault : t.fault = none :=
    (exec_fault_of_transfer hstep hi).trans (State.status_running_iff.1 hw.running).1
  refine ⟨hfault, fun hnonneg hlt i' hdecode' => ?_, fun hend => State.status_halted_iff.2 ⟨hfault, hend⟩,
    fun hneg => ?_⟩
  · have hw' : t.AboutToExecute (t.wordAt t.pc) := ⟨State.status_running_iff.2 ⟨hfault, hlt⟩, hnonneg, rfl⟩
    exact hw'.step_eq_exec hdecode'
  · exact step_negative (State.status_running_iff.2 ⟨hfault, by omega⟩) hneg

/-! ## Machines that agree on all but registers, cells and capacities -/

/-- The two machines are at the same point of the same program. -/
structure State.SameControl (s s' : State) : Prop where
  pc : s'.pc = s.pc
  im : s'.im = s.im
  n : s'.n = s.n
  fault : s'.fault = s.fault

theorem State.SameControl.status {s s' : State} (h : s.SameControl s') : s'.status = s.status := by
  rw [State.status, State.status, State.pastEnd, State.pastEnd, h.fault, h.n, h.pc]

theorem State.SameControl.wordAt_pc {s s' : State} (h : s.SameControl s') : s'.wordAt s'.pc = s.wordAt s.pc := by
  simp only [State.wordAt, h.im, h.pc]

/-- A `bge` chooses between two targets. -/
theorem exec_bge_pc {rs rt : Reg} {k : Int} {s t : State} (h : exec (.bge rs rt k) s = .next t) :
    t.pc = s.pc ∨ t.pc = s.pc + immWord k := by
  obtain ⟨_, _, _, hbge, -, htaken⟩ | ⟨-, hstay⟩ := exec_pc h
  · cases hbge
    exact .inr htaken
  · exact .inl hstay

/-- No other instruction reads a register to choose `pc`. -/
theorem exec_pc_of_not_bge {i : Instr} {s t : State} (h : exec i s = .next t) (hi : ¬∃ rs rt k, i = .bge rs rt k) :
    t.pc = pcAfter i s.pc := by
  obtain ⟨rs, rt, k, hbge, -, -⟩ | ⟨-, hafter⟩ := exec_pc h
  · exact absurd ⟨rs, rt, k, hbge⟩ hi
  · exact hafter

/-- Settles O53: the two machines have the same status, so both rest, or both fetch the same word, or both raise. -/
theorem registersNeverReachThePc : Obligations.RegistersNeverReachThePc := by
  intro s s' t t' hpc him hn hfault h h'
  have hc : s.SameControl s' := ⟨hpc, him, hn, hfault⟩
  obtain ⟨-, ⟨hs, rfl⟩ | ⟨hs, hneg, rfl⟩ | ⟨hs, hnonneg, ⟨e, he⟩, rfl⟩ | ⟨hs, hnonneg, i, hi, hexec⟩⟩ := step_inversion h
  · rw [step_halted (hc.status.trans hs)] at h'
    injection h' with h'
    exact .inl (h' ▸ hpc)
  · rw [step_negative (hc.status.trans hs) (hpc ▸ hneg)] at h'
    injection h' with h'
    exact .inl (h' ▸ hpc)
  · have hw' : s'.AboutToExecute (s.wordAt s.pc) := ⟨hc.status.trans hs, hpc ▸ hnonneg, hc.wordAt_pc⟩
    rw [hw'.step_eq_raise he] at h'
    injection h' with h'
    exact .inl (h' ▸ congrArg (· + 1) hpc)
  · have hw' : s'.AboutToExecute (s.wordAt s.pc) := ⟨hc.status.trans hs, hpc ▸ hnonneg, hc.wordAt_pc⟩
    rw [hw'.step_eq_exec hi] at h'
    by_cases hbge : ∃ rs rt k, i = .bge rs rt k
    · obtain ⟨rs, rt, k, rfl⟩ := hbge
      exact .inr ⟨rs, rt, k, hi, exec_bge_pc hexec, hpc ▸ exec_bge_pc h'⟩
    · have ht : t.pc = pcAfter i (s.pc + 1) := exec_pc_of_not_bge hexec hbge
      have ht' : t'.pc = pcAfter i (s'.pc + 1) := exec_pc_of_not_bge h' hbge
      exact .inl (by rw [ht, ht', hpc])

end Sys2Proof.Machine
end

section
/-! PROOFS. The invariant of the machine (10_state.md R16 to R19), kept by every step, and the truth of the fault register
(60_exceptions.md R152 to R155). -/
namespace Sys2Proof.Machine

/-! ## The Data Memory -/

/-- An address in range names a cell below the capacity (20_memory.md R36). -/
theorem State.toNat_lt_of_dataInRange {s : State} {a : Int} (h : s.dataInRange a = true) :
    a.toNat < s.params.dmemWords := by
  obtain ⟨hlo, hhi⟩ := (s.dataInRange_iff a).1 h
  omega

/-- The Data Memory is in canonical form and inside its capacity. -/
def State.DataWf (s : State) : Prop := Memory.wf s.dm = true ∧ Memory.below s.params.dmemWords s.dm = true

theorem State.DataWf.setCell {s : State} (h : s.DataWf) {a : Nat} (ha : a < s.params.dmemWords) (v : Word) :
    (s.setCell a v).DataWf := ⟨Memory.write_wf h.1 a v, Memory.write_below h.2 ha v⟩

/-- Only a `sw` in range touches the Data Memory. -/
theorem exec_dataWf {i : Instr} {s t : State} (hs : s.DataWf) (h : exec i s = .next t) : t.DataWf := by
  obtain ⟨_, _, -, -, rfl⟩ | ⟨_, _, _, -, hin, rfl⟩ | ⟨_, _, _, -, -, rfl⟩ |
    ⟨_, _, _, -, ⟨-, rfl⟩ | ⟨-, rfl⟩⟩ | ⟨_, -, rfl⟩ | ⟨_, -, rfl⟩ := exec_inversion h
  · exact hs
  · exact hs.setCell (State.toNat_lt_of_dataInRange hin) _
  all_goals exact hs

theorem step_dataWf {s t : State} (hs : s.DataWf) (h : step s = .next t) : t.DataWf := by
  obtain ⟨-, ⟨-, rfl⟩ | ⟨-, -, rfl⟩ | ⟨-, -, -, rfl⟩ | ⟨-, -, _, -, hexec⟩⟩ := step_inversion h
  · exact hs
  · exact hs
  · exact hs
  · exact exec_dataWf (s := s.setPc (s.pc + 1)) hs hexec

/-! ## The invariant -/

/-- `pc` stays in the range of R16: it moves by one from inside the program, or as O51 says. -/
theorem step_pcInRange {s t : State} (hinv : s.Inv) (h : step s = .next t) :
    t.pcInRange := by
  rw [State.pcInRange, (step_sameProgram h).n]
  obtain ⟨-, ⟨-, rfl⟩ | ⟨-, -, rfl⟩ | ⟨hrun, hnonneg, -, rfl⟩ | ⟨hrun, hnonneg, i, hdecode, -⟩⟩ := step_inversion h
  · exact hinv.pc
  · exact hinv.pc
  · obtain ⟨hpc, -⟩ := hinv.pc_of_running hrun
    rw [State.raise_pc, State.setPc_pc, hinv.toInt_pc_succ hrun]
    omega
  · obtain ⟨-, -, -, hrange⟩ := pcAfterEachInstruction s t _ i hinv ⟨hrun, hnonneg, rfl⟩ hdecode h
    exact hrange

/-- Settles O48: no step writes the program or the capacities, and the Data Memory and `pc` stay inside theirs. -/
theorem stepKeepsInvariant : Obligations.StepKeepsInvariant := by
  intro s t hinv h
  obtain ⟨him, hn, hparams⟩ := step_sameProgram h
  obtain ⟨hdmWf, hdmBelow⟩ := step_dataWf ⟨hinv.dmWf, hinv.dmBelow⟩ h
  exact {
    params := hparams ▸ hinv.params
    count := hparams ▸ hn ▸ hinv.count
    imRising := him ▸ hinv.imRising
    imBelow := hparams ▸ him ▸ hinv.imBelow
    dmWf := hdmWf
    dmBelow := hdmBelow
    pc := step_pcInRange hinv h }

/-! ## The fault register -/

theorem State.faultExplained_of_none {s : State} (h : s.fault = none) : s.faultExplained := by
  simp only [State.faultExplained, h]

/-- Settles O49: each cause is recorded where its condition was found, and the raise changes nothing the condition is
about; after Fetch that is the word at `pc` - 1. -/
theorem faultRegisterTellsTheTruth : Obligations.FaultRegisterTellsTheTruth := by
  intro s t hinv h
  obtain ⟨hnone, ⟨-, rfl⟩ | ⟨-, hneg, rfl⟩ | ⟨hrun, hnonneg, hinvalid, rfl⟩ | ⟨hrun, hnonneg, i, hdecode, hexec⟩⟩ :=
    step_inversion h
  · exact State.faultExplained_of_none hnone
  · exact ⟨hneg, rfl⟩
  · obtain ⟨hpc, -⟩ := hinv.pc_of_running hrun
    exact ⟨hnonneg, hpc, hinv.toInt_pc_succ hrun, State.fetched_after s, hinvalid⟩
  · obtain hkeep | ⟨rt, rs, k, hi, hout, rfl⟩ := exec_fault hexec
    · exact State.faultExplained_of_none (hkeep.trans hnone)
    · obtain ⟨hpc, -⟩ := hinv.pc_of_running hrun
      have hadvanced : 0 < (s.pc + 1).toInt ∧ (s.pc + 1).toInt ≤ s.n := by
        rw [hinv.toInt_pc_succ hrun]
        omega
      have hdecode : decodeWord (s.setPc (s.pc + 1)).fetched = .ok i := (State.fetched_after s).symm ▸ hdecode
      refine ⟨hadvanced.1, hadvanced.2, fun hin => ?_, rt, rs, k, hi.imp ?_ ?_, rfl⟩
      · exact Bool.eq_false_iff.1 hout ((State.dataInRange_iff _ _).2 hin)
      · exact fun hlw => hdecode.trans (congrArg Except.ok hlw)
      · exact fun hsw => hdecode.trans (congrArg Except.ok hsw)

end Sys2Proof.Machine
end

section
/-! PROOFS. The Data Memory: its canonical form (10_state.md R19), the bounds of an access (20_memory.md R36), and what a
load sees of the stores before it (R33, R40). -/
namespace Sys2Proof.Machine

/-! ## The canonical form is determined by what it lists, and that by what it reads -/

/-- A canonical memory lists the cells that do not read 0, and no other. -/
theorem Memory.lookup_eq_of_wf {m : Memory} (h : ∀ c ∈ m, c.2 ≠ 0) (a : Nat) :
    Memory.lookup m a = if Memory.read m a = 0 then none else some (Memory.read m a) := by
  have hlisted : ∀ v, Memory.lookup m a = some v → v ≠ 0 := by
    induction m with
    | nil => nofun
    | cons c m ih =>
      obtain ⟨b, w⟩ := c
      intro v hv
      unfold Memory.lookup at hv
      split at hv
      · exact Option.some.inj hv ▸ h _ List.mem_cons_self
      · exact ih (fun c hc => h c (List.mem_cons_of_mem _ hc)) v hv
  unfold Memory.read
  cases hl : Memory.lookup m a with
  | none => simp
  | some v => exact (if_neg (hlisted v hl)).symm

theorem Memory.lookup_head (b : Nat) (v : Word) (m : Memory) : Memory.lookup ((b, v) :: m) b = some v := if_pos rfl

/-- The first address listed is the least. -/
theorem Memory.head_le_of_lookup {a b : Nat} {v w : Word} {m : Memory} (h : Memory.risingFrom (b + 1) m = true)
    (hl : Memory.lookup ((b, v) :: m) a = some w) : b ≤ a := by
  have hrising : Memory.risingFrom b ((b, v) :: m) = true := Memory.risingFrom_cons.2 ⟨Nat.le_refl b, h⟩
  by_contra hlt
  cases (Memory.lookup_lt hrising (Nat.lt_of_not_le hlt)).symm.trans hl

/-- Two memories with rising addresses that list the same are the same list. -/
theorem Memory.eq_of_lookup_eq {m m' : Memory} {lo lo' : Nat} (h : Memory.risingFrom lo m = true)
    (h' : Memory.risingFrom lo' m' = true) (heq : ∀ a, Memory.lookup m a = Memory.lookup m' a) : m = m' := by
  induction m generalizing lo m' lo' with
  | nil =>
    cases m' with
    | nil => rfl
    | cons c' m' => simpa [Memory.lookup] using heq c'.1
  | cons c m ih =>
    obtain ⟨b, v⟩ := c
    cases m' with
    | nil => simpa [Memory.lookup] using heq b
    | cons c' m' =>
      obtain ⟨b', v'⟩ := c'
      obtain ⟨-, hm⟩ := Memory.risingFrom_cons.1 h
      obtain ⟨-, hm'⟩ := Memory.risingFrom_cons.1 h'
      have hb : b = b' := Nat.le_antisymm (Memory.head_le_of_lookup hm ((heq b').trans (Memory.lookup_head ..)))
        (Memory.head_le_of_lookup hm' ((heq b).symm.trans (Memory.lookup_head ..)))
      subst hb
      have hv : v = v' := by simpa [Memory.lookup] using heq b
      have hrest : m = m' := ih hm hm' fun a => by
        by_cases ha : a = b
        · subst ha
          rw [Memory.lookup_lt hm (Nat.lt_succ_self a), Memory.lookup_lt hm' (Nat.lt_succ_self a)]
        · simpa [Memory.lookup, ha] using heq a
      rw [hv, hrest]

/-- Settles O42: equal cells are equal listings, and these are equal lists. -/
theorem equalCellsAreEqualMemories : Obligations.EqualCellsAreEqualMemories := by
  intro m m' h h' heq
  obtain ⟨hrising, hnonzero⟩ := Memory.wf_iff.1 h
  obtain ⟨hrising', hnonzero'⟩ := Memory.wf_iff.1 h'
  refine Memory.eq_of_lookup_eq hrising hrising' fun a => ?_
  rw [Memory.lookup_eq_of_wf hnonzero, Memory.lookup_eq_of_wf hnonzero', heq a]

/-! ## Accesses -/

/-- Settles O40, by the two laws of each access. -/
theorem dataAccessIsBoundsChecked : Obligations.DataAccessIsBoundsChecked := by
  refine fun s a v => ⟨fun hout => ?_, fun hlo hhi => ?_⟩
  · have hout : s.dataInRange a = false := (s.dataInRange_eq_false_iff a).2 hout
    exact ⟨State.memRead_outOfRange hout, State.memWrite_outOfRange hout v⟩
  · have hin : s.dataInRange a = true := (s.dataInRange_iff a).2 ⟨hlo, hhi⟩
    exact ⟨State.memRead_inRange hin, _, State.memWrite_inRange hin v, fun hwf b => State.cell_setCell hwf a.toNat b v⟩

/-- Settles O41: the store that raised nothing was in range and wrote its cell; the load reads it, or a cell it did not
write. -/
theorem loadSeesLatestStore : Obligations.LoadSeesLatestStore := by
  intro s t rt rs rt' rs' k k' hwf hnone hstore hfault hin'
  cases hin : s.dataInRange (s.effectiveAddress rs k) with
  | false =>
    rw [exec_sw_outOfRange hin] at hstore
    injection hstore with hstore
    subst hstore
    cases hfault
  | true =>
    rw [exec_sw_inRange hin] at hstore
    injection hstore with hstore
    subst hstore
    refine ⟨_, exec_lw_inRange hin', hfault, fun hsame => ?_, fun hother => ?_⟩
    · rw [State.reg_setReg_same, hsame, State.cell_setCell_same hwf]
    · obtain ⟨hlo, -⟩ := (s.dataInRange_iff _).1 hin
      obtain ⟨hlo', -⟩ := (s.dataInRange_iff _).1 hin'
      rw [State.reg_setReg_same, State.cell_setCell_other hwf (by omega)]

end Sys2Proof.Machine
end

section
/-! PROOFS. The sign test of `bge` (44_control_transfer.md R140, corner case (a)), and the idioms of 30_encoding.md R62. -/
namespace Sys2Proof.Machine

/-- The wrapped difference is the difference when that fits in 32 bits; past either end its sign is the wrong one. -/
theorem toInt_sub_cases (a b : Word) :
    (-(2 ^ 31) ≤ a.toInt - b.toInt ∧ a.toInt - b.toInt < 2 ^ 31 ∧ (a - b).toInt = a.toInt - b.toInt) ∨
      (2 ^ 31 ≤ a.toInt - b.toInt ∧ (a - b).toInt < 0) ∨ (a.toInt - b.toInt < -(2 ^ 31) ∧ 0 ≤ (a - b).toInt) := by
  have ha := BitVec.le_toInt a
  have ha' := BitVec.toInt_lt (x := a)
  have hb := BitVec.le_toInt b
  have hb' := BitVec.toInt_lt (x := b)
  rw [BitVec.toInt_sub, Int.bmod_def]
  omega

/-- Settles O28: without overflow the test is of the difference itself; with one it answers the opposite of the
comparison. -/
theorem branchTestIsExactWithoutOverflow : Obligations.BranchTestIsExactWithoutOverflow := by
  intro a b
  have htest : resultNonNegative (alu .sub a b) = decide (0 ≤ (a - b).toInt) :=
    Bool.eq_iff_iff.2 ((resultNonNegative_iff (a - b)).trans decide_eq_true_iff.symm)
  rw [htest, decide_eq_decide]
  obtain ⟨hlo, hhi, hexact⟩ | ⟨hover, hneg⟩ | ⟨hunder, hnonneg⟩ := toInt_sub_cases a b
  · rw [hexact]
    exact iff_of_true Int.sub_nonneg ⟨hlo, hhi⟩
  · exact iff_of_false (by omega) (by omega)
  · exact iff_of_false (by omega) (by omega)

/-! ## Idioms -/

/-- Writing a register with what it holds changes nothing. -/
theorem State.setReg_reg (s : State) (r : Reg) : s.setReg r (s.reg r) = s := by
  have hx : s.x.set r.val (s.reg r) r.isLt = s.x := Vector.set_getElem_self _
  rw [State.setReg, hx]

/-- Settles O55, by the law of `exec` of each instruction and an identity of words. -/
theorem idiomsOfTheInstructionSet : Obligations.IdiomsOfTheInstructionSet := by
  refine fun d r q k s => ⟨?_, ?_, ?_, ?_, ?_, ?_⟩
  · rw [exec_or, BitVec.or_self, State.setReg_reg]
  · have hzero : immWord 0 = 0 := rfl
    rw [exec_subi, hzero, sub_zero, State.setReg_reg]
  · rw [exec_or, BitVec.or_self]
  · have hneg : immWord (-k) = -BitVec.ofInt 32 k := BitVec.ofInt_neg
    rw [exec_subi, hneg, BitVec.sub_neg]
  · rw [exec_xor, BitVec.xor_self]
    rfl
  · have hself : 0 ≤ (s.reg r - s.reg r).toInt := by rw [BitVec.sub_self]; decide
    exact exec_bge_taken k hself

end Sys2Proof.Machine
end

section
/-! PROOFS. Runs: the faulted machine (60_exceptions.md R158), the halted one (70_reset_and_hazards.md R177), the end of a
run (R182), and the two loops that never end (60_exceptions.md R165). -/
namespace Sys2Proof.Machine

/-- A run whose first step answers a state goes on from there. -/
theorem run_succ_of_next {M : Host.Core} {s u : M.State} (h : M.step s = .next u) (k : Nat) :
    M.run (k + 1) s = M.run k u := by
  rw [Host.Core.run, h]

/-- A run whose first step faults stops with that fault. -/
theorem run_succ_of_fault {M : Host.Core} {s : M.State} {r : M.Fault} (h : M.step s = .fault r) (k : Nat) :
    M.run (k + 1) s = .fault r := by
  rw [Host.Core.run, h]

/-- A run from a state the step gives back never leaves it. -/
theorem run_of_step_self {s : State} (h : step s = .next s) (k : Nat) :
    Host.Core.run Sys2Proof.core k s = .next s := by
  induction k with
  | zero => rfl
  | succ k ih => exact (run_succ_of_next (M := Sys2Proof.core) h k).trans ih

/-- Settles O7: the step of a halted machine is the state itself. -/
theorem haltedStateIsStable : Obligations.HaltedStateIsStable :=
  fun _ h => run_of_step_self (step_halted h)

/-- Settles O6: the run stops at its first step. -/
theorem faultedMachineStaysStopped : Obligations.FaultedMachineStaysStopped :=
  fun _ _ h k => run_succ_of_fault (M := Sys2Proof.core) (step_faulted h) k

/-- No end of a run comes before another: the earlier one is halted, and the later is the first that is. -/
theorem EndOfRun.unique {s t u : State} (ht : EndOfRun s t) (hu : EndOfRun s u) : t = u := by
  obtain ⟨k, hkt, hthalted, hkfirst⟩ := ht
  obtain ⟨j, hju, huhalted, hjfirst⟩ := hu
  obtain hlt | rfl | hgt := Nat.lt_trichotomy k j
  · exact absurd hthalted (hjfirst k t hlt hkt)
  · exact Host.Outcome.next.inj (hkt.symm.trans hju)
  · exact absurd huhalted (hkfirst j u hgt hju)

/-- Settles O8: the end is unique, and it is halted. -/
theorem endOfRunIsUnique : Obligations.EndOfRunIsUnique := by
  intro s t u ht hu
  have hunique : t = u := ht.unique hu
  obtain ⟨_, -, hhalted, -⟩ := ht
  exact ⟨hunique, State.status_halted_iff.1 hhalted⟩

/-! ## Loops of one instruction -/

@[simp] theorem State.setPc_setPc (s : State) (p q : Word) : (s.setPc p).setPc q = s.setPc q := rfl
@[simp] theorem State.setPc_self (s : State) : s.setPc s.pc = s := rfl

/-- The immediate word of K = `pc` is `pc`. -/
theorem immWord_toInt_word (w : Word) : immWord w.toInt = w := BitVec.ofInt_toInt

/-- Settles O54: both instructions set `pc` to where they were fetched, so the step gives back the state. -/
theorem selfBranchRunsForEver : Obligations.SelfBranchRunsForEver := by
  refine fun s w hw => ⟨fun hdecode => run_of_step_self ?_, fun rs rt hdecode htaken => run_of_step_self ?_⟩
  · rw [hw.step_eq_exec hdecode, exec_j, immWord_toInt_word, State.setPc_setPc, State.setPc_self]
  · have hback : s.pc + 1 + immWord (-1) = s.pc := by
      have hminus : immWord (-1) = -1 := rfl
      rw [hminus, add_neg_cancel_right]
    rw [hw.step_eq_exec hdecode, exec_bge_taken (s := s.setPc (s.pc + 1)) (-1) htaken, State.setPc_pc, hback,
      State.setPc_setPc, State.setPc_self]

end Sys2Proof.Machine
end

section
/-! PROOFS. What the host places before a run (70_reset_and_hazards.md R173 to R175), and the runs of a launched program:
the invariant and the truth of the fault register hold at the launch and across every step. -/
namespace Sys2Proof.Machine

/-! ## The program -/

theorem programMemory_rising (i : Nat) (ws : List Word) : Memory.risingFrom i (programMemory i ws) = true := by
  induction ws generalizing i with
  | nil => rfl
  | cons w ws ih => exact Memory.risingFrom_cons.2 ⟨Nat.le_refl i, ih (i + 1)⟩

theorem programMemory_below (i : Nat) (ws : List Word) : Memory.below (i + ws.length) (programMemory i ws) = true := by
  induction ws generalizing i with
  | nil => rfl
  | cons w ws ih =>
    refine Memory.below_iff.2 fun c hc => ?_
    rw [List.length_cons]
    rcases List.mem_cons.1 hc with rfl | hc
    · omega
    · have hrest := Memory.below_iff.1 (ih (i + 1)) c hc
      omega

/-- The words stand in order from index `i`. -/
theorem lookup_programMemory (i : Nat) (ws : List Word) (k : Nat) :
    Memory.lookup (programMemory i ws) (i + k) = ws[k]? := by
  induction ws generalizing i k with
  | nil => rfl
  | cons w ws ih =>
    cases k with
    | zero => exact Memory.lookup_head ..
    | succ k =>
      have hne : i + (k + 1) ≠ i := by omega
      rw [programMemory, Memory.lookup, if_neg hne, List.getElem?_cons_succ, ← ih (i + 1) k]
      congr 1
      omega

theorem readProgram_programMemory {ws : List Word} {k : Nat} (h : k < ws.length) :
    Memory.readProgram (programMemory 0 ws) k = ws[k] := by
  have hk := lookup_programMemory 0 ws k
  rw [Nat.zero_add, List.getElem?_eq_getElem h] at hk
  rw [Memory.readProgram, hk, Option.getD_some]

/-! ## The preload -/

/-- Settles O4: a preload is the store of one cell, made when the cell exists. -/
theorem preloadSetsOneCell : Obligations.PreloadSetsOneCell := by
  refine fun s a v hwf => ⟨fun ha => ⟨s.setCell a v, if_pos ha, fun b => State.cell_setCell hwf a b v, ?_⟩,
    fun ha => if_neg (Nat.not_lt.2 ha)⟩
  exact ⟨fun _ => rfl, rfl, rfl, rfl, rfl, rfl⟩

/-- What the store of a cell that exists keeps, a list of preloads keeps. -/
theorem preloadCells_induction {P : State → Prop}
    (hcell : ∀ (s : State) (a : Nat) (v : Word), a < s.params.dmemWords → P s → P (s.setCell a v))
    {cells : List (Nat × Word)} {s t : State} (h : s.preloadCells cells = some t) (hs : P s) : P t := by
  induction cells generalizing s with
  | nil => exact Option.some.inj h ▸ hs
  | cons c cells ih =>
    obtain ⟨a, v⟩ := c
    by_cases ha : a < s.params.dmemWords
    · rw [State.preloadCells, State.preloadCell, if_pos ha] at h
      exact ih h (hcell s a v ha hs)
    · rw [State.preloadCells, State.preloadCell, if_neg ha] at h
      cases h

/-! ## The launch -/

/-- The state of a launch before any cell is preloaded. -/
def launchState (p : Config.Params) (prog : List Word) (x0 : Vector Word 32) : State :=
  { State.reset with params := p, x := x0, im := programMemory 0 prog, n := prog.length }

/-- A program that does not fit is rejected (decision D6); one that fits is placed and the cells preloaded. -/
theorem launch_eq (p : Config.Params) (prog : List Word) (x0 : Vector Word 32) (cells : List (Nat × Word)) :
    launch p prog x0 cells =
      if prog.length ≤ p.imemWords then (launchState p prog x0).preloadCells cells else none := by
  by_cases hfits : prog.length ≤ p.imemWords
  · simp [launch, State.load, launchState, hfits]
  · simp [launch, State.load, hfits]

/-- All of the state but the Data Memory is what the launch sets. -/
structure State.AtLaunch (p : Config.Params) (prog : List Word) (x0 : Vector Word 32) (s : State) : Prop where
  im : s.im = programMemory 0 prog
  n : s.n = prog.length
  pc : s.pc = 0
  fault : s.fault = none
  x : s.x = x0
  params : s.params = p

/-- A launch that succeeds: the program fits, the preload changes cells alone, and cells that exist. -/
theorem launch_inversion {p : Config.Params} {prog : List Word} {x0 : Vector Word 32} {cells : List (Nat × Word)}
    {s : State} (h : launch p prog x0 cells = some s) :
    prog.length ≤ p.imemWords ∧ s.AtLaunch p prog x0 ∧ s.DataWf := by
  rw [launch_eq] at h
  split at h
  next hfits =>
    refine ⟨hfits, preloadCells_induction ?_ h ⟨rfl, rfl, rfl, rfl, rfl, rfl⟩, preloadCells_induction ?_ h ⟨rfl, rfl⟩⟩
    · rintro s a v - ⟨him, hn, hpc, hfault, hx, hparams⟩
      exact ⟨him, hn, hpc, hfault, hx, hparams⟩
    · exact fun s a v ha hs => hs.setCell ha v
  next => cases h

/-- Settles O3: the launch places the program, and the preload leaves all but the cells. -/
theorem launchPlacesProgramInOrder : Obligations.LaunchPlacesProgramInOrder := by
  refine fun p prog x0 => ⟨fun hlong cells => ?_, fun cells s h => ?_, fun hfits => ?_⟩
  · rw [launch_eq, if_neg (Nat.not_le.2 hlong)]
  · obtain ⟨-, hlaunch, -⟩ := launch_inversion h
    refine ⟨fun k hk => ?_, hlaunch.n, hlaunch.pc, hlaunch.fault, fun r => ?_, hlaunch.params⟩
    · rw [hlaunch.im, readProgram_programMemory hk]
    · rw [State.reg, hlaunch.x]
  · exact ⟨launchState p prog x0, (launch_eq ..).trans (if_pos hfits), fun _ => rfl⟩

/-! ## The invariant along a run -/

theorem launch_inv {p : Config.Params} (hp : p.wf) {prog : List Word} {x0 : Vector Word 32}
    {cells : List (Nat × Word)} {s : State} (h : launch p prog x0 cells = some s) : s.Inv := by
  obtain ⟨hfits, hlaunch, hdmWf, hdmBelow⟩ := launch_inversion h
  have hbelow : Memory.below p.imemWords (programMemory 0 prog) = true :=
    Memory.below_iff.2 fun c hc => by
      have hc := Memory.below_iff.1 (programMemory_below 0 prog) c hc
      omega
  have hpc : s.pc.toInt = 0 := congrArg BitVec.toInt hlaunch.pc
  exact {
    params := hlaunch.params ▸ hp
    count := by rw [hlaunch.n, hlaunch.params]; exact hfits
    imRising := by rw [hlaunch.im]; exact programMemory_rising 0 prog
    imBelow := by rw [hlaunch.im, hlaunch.params]; exact hbelow
    dmWf := hdmWf
    dmBelow := hdmBelow
    pc := by rw [State.pcInRange, hpc]; omega }

/-- What every step keeps, a run keeps. -/
theorem run_invariant (M : Host.Core) {P : M.State → Prop} (hstep : ∀ {s t}, M.step s = .next t → P s → P t) {k : Nat}
    {s t : M.State} (h : M.run k s = .next t) : P s → P t :=
  run_induction M (R := fun s t => P s → P t) (fun _ => id) (fun hst htu hs => htu (hst hs)) hstep h

/-- Settles O50: the launch meets both, no fault being recorded there, and O48 and O49 carry them across each step. -/
theorem launchedRunsStayInInvariant : Obligations.LaunchedRunsStayInInvariant := by
  intro p prog x0 cells s t k hp hlaunch hrun
  have hinv : s.Inv := launch_inv hp hlaunch
  obtain ⟨-, hatLaunch, -⟩ := launch_inversion hlaunch
  refine run_invariant Sys2Proof.core (P := fun s => s.Inv ∧ s.faultExplained) (fun hstep ⟨hinv, _⟩ => ?_) hrun
    ⟨hinv, State.faultExplained_of_none hatLaunch.fault⟩
  exact ⟨stepKeepsInvariant _ _ hinv hstep, faultRegisterTellsTheTruth _ _ hinv hstep⟩

/-- Settles O2: reset is the launch of the empty program, with every register 0 and nothing preloaded, before any step. -/
theorem resetSatisfiesInvariant : Obligations.ResetSatisfiesInvariant :=
  launchedRunsStayInInvariant Config.largest [] (Vector.replicate 32 0) [] State.reset State.reset 0 (by decide) rfl rfl

end Sys2Proof.Machine
end
